-- ==== Sys2Proof/Word.lean ====
section
/-!
DEFINITION. The word types of SSS-CORE (spec/00_scope.md R9; widths: spec/10_state.md R21 to R42, spec/20_memory.md R61).
Every value is unsigned and bit 0 is the least significant bit; nothing in the hardware is signed.
-/

namespace Sys2Proof

/-- A field element or an 8-bit register: D0's "unsigned integer constrained to [0,255]". -/
abbrev Byte := BitVec 8

/-- A 16-bit length (SLEN, SH_LEN[s]). -/
abbrev Half := BitVec 16

/-- A host byte address (spec/20_memory.md R61: `h_addr[31:0]`). -/
abbrev Addr := BitVec 32

end Sys2Proof
end

