-- ==== Sys2Proof/Config.lean ====
section
/-!
DEFINITION. What one instance of the hardware fixes (spec/00_scope.md R6) and the free values: what the spec leaves to the
randomness source (spec/20_memory.md R81, spec/10_state.md R44) and to power-on (spec/10_state.md R45, R250 of spec/70).
The opaque constants have no body: nothing in Lean can find a value of theirs, so what is proved holds for every value.
-/

namespace Sys2Proof

/-- What the randomness source answers to one request (spec/20_memory.md R81, R85).
`bytes r`: it delivers `r` and ends; any bytes, of any quality (R86), and any length, shorter than asked included.
`never`: it never answers, and the command that asked never finishes. -/
inductive RngAnswer where
  | bytes (r : List Byte)
  | never
  deriving DecidableEq, Repr, Inhabited

/-- The values the parameter LMAX, the largest secret and share length in bytes, may take: at most 65535 (R6). That it is not
0 is part of the machine's invariant. -/
abbrev Lmax := Fin 65536

/-- The value of LMAX for this hardware, 256 (spec/00_scope.md R6). The model takes LMAX as a parameter, `State.lmax`, and uses
this value in `State.reset` alone. Assumption log 5. -/
abbrev Config.lmax : Lmax := 256

/-- EXPW, the width of the exponent register EXP in bits: 32 for this hardware (spec/00_scope.md R6). Assumption log 5. -/
abbrev Config.expW : Nat := 32

/-- FREE VALUE (assumption log 2): the source's answer to request number `k` since the run began, when `len` bytes are
asked for. It is used once the answers listed in the state are used up. -/
opaque Config.rngAnswer (k len : Nat) : RngAnswer

/-- FREE VALUE (assumption log 3): the byte a buffer element's host address `a` holds after reset number `epoch` until
something is written there ("one draw per element per reset", spec/93_implementation_defined.md U10). -/
opaque Config.powerOnByte (epoch a : Nat) : Byte

end Sys2Proof
end

