-- ==== Sys2Proof/Syntax.lean ====
section
/-!
DEFINITION. The syntax of SSS-CORE: its fifteen commands (spec/30_encoding.md R102), the locations of its host address map
(spec/20_memory.md R63), the host script's statements (spec/30_encoding.md R106) and the moves of the outside world
(spec/20_memory.md R61, spec/70_reset_and_hazards.md R250).
-/

namespace Sys2Proof

/-- The commands, one per row of spec/opcode_table.json. A command has no operand field: every operand is in a fixed
register or buffer (R100, R103). -/
inductive Instr where
  | gfadd | gfsub | gfxtime | gfmul | gfpow | gfinv | gfdiv
  | peval | xdistinct | lbasis | linterp | linterp0 | pbuild
  | split | combine
  deriving DecidableEq, Repr

/-- What the decoder answers for a command byte: a command, or an illegal opcode by name (R101, R104). -/
inductive Decoded where
  | instr (i : Instr)
  | illegal (op : Byte)
  deriving DecidableEq, Repr

/-- A row of the opcode table: the byte matches when its bits under `mask` are `value`. -/
structure OpcodeRow where
  mnemonic : String
  mask     : Byte
  value    : Byte
  instr    : Instr
  deriving DecidableEq, Repr

/-- A location of the host address map: a scalar register, or an element of a buffer (R63). -/
inductive Loc where
  | cmd | status | errcode | res | opa | opb | deg | ctrl | exp | xcnt | ycnt | t | n | scnt | slen
  | coef (k : Nat)
  | xs (i : Nat)
  | ys (i : Nat)
  | shIdx (s : Nat)
  | shLen (s : Nat)
  | sec (p : Nat)
  | shData (s p : Nat)
  deriving DecidableEq, Repr

/-- A statement of the host script (R106): `WR loc, value`, `RD loc`, or a mnemonic alone. -/
inductive Stmt where
  | wr (loc : Loc) (value : Nat)
  | rd (loc : Loc)
  | command (i : Instr)
  deriving DecidableEq, Repr

/-- One move of the world outside the block: a host transaction (R61), or a pulse of the reset input between two
transactions (R250). -/
inductive HostMove where
  | read (addr : Addr)
  | write (addr : Addr) (data : Byte)
  | reset
  deriving DecidableEq, Repr

/-- The response that completes a host transaction (R61): `err` is `h_err`, `rdata` is `h_rdata`. -/
inductive HostResponse where
  | readDone (rdata : Byte) (err : Bool)
  | writeDone (err : Bool)
  deriving DecidableEq, Repr

end Sys2Proof
end

