-- ==== Sys2Proof/WellFormed.lean ====
section
/-!
DEFINITION. Which locations and statements exist. A buffer element must lie inside its buffer's capacity
(spec/00_scope.md R6), and a written value must fit its location (spec/30_encoding.md R106). A command byte carries no
field, so every `Instr` is well formed.
-/

namespace Sys2Proof

/-- The width of a location in bytes (spec/20_memory.md R63). -/
def Loc.width : Loc → Nat
  | .exp => Config.expW / 8
  | .slen => 2
  | .shLen _ => 2
  | _ => 1

/-- The location exists in an instance with LMAX = `lmax` (capacities: spec/00_scope.md R6, spec/10_state.md R35 to R42). -/
def Loc.wf (lmax : Nat) : Loc → Bool
  | .coef k => decide (k < 256)
  | .xs i => decide (i < 255)
  | .ys i => decide (i < 255)
  | .shIdx s => decide (s < 255)
  | .shLen s => decide (s < 255)
  | .sec p => decide (p < lmax)
  | .shData s p => decide (s < 255) && decide (p < lmax)
  | _ => true

/-- The location is an element of a buffer, kept in memory, and not a scalar register. -/
def Loc.isBuffer : Loc → Bool
  | .coef _ | .xs _ | .ys _ | .shIdx _ | .shLen _ | .sec _ | .shData _ _ => true
  | _ => false

/-- The statement names a location that exists in an instance with LMAX = `lmax` and, for a write, a value its bytes can hold
(R106). -/
def Stmt.wf (lmax : Nat) : Stmt → Bool
  | .wr loc v => loc.wf lmax && decide (v < 256 ^ loc.width)
  | .rd loc => loc.wf lmax
  | .command _ => true

end Sys2Proof
end

