-- ==== Sys2Proof/Decode.lean ====
section
/-!
DEFINITION. Decoding a command byte (spec/30_encoding.md R100 to R104) and a host address (spec/20_memory.md R63, R71),
and the encoders of both and of the host script's statements (R106).
-/

namespace Sys2Proof

/-- The opcode table, row by row (R102): all eight bits of every row are decoded. -/
def opcodeTable : List OpcodeRow :=
  [ ⟨"GFADD",     0xFF, 0b00000001, .gfadd⟩,
    ⟨"GFSUB",     0xFF, 0b00000010, .gfsub⟩,
    ⟨"GFXTIME",   0xFF, 0b00000011, .gfxtime⟩,
    ⟨"GFMUL",     0xFF, 0b00000100, .gfmul⟩,
    ⟨"GFPOW",     0xFF, 0b00000101, .gfpow⟩,
    ⟨"GFINV",     0xFF, 0b00000110, .gfinv⟩,
    ⟨"GFDIV",     0xFF, 0b00000111, .gfdiv⟩,
    ⟨"PEVAL",     0xFF, 0b00010000, .peval⟩,
    ⟨"XDISTINCT", 0xFF, 0b00010001, .xdistinct⟩,
    ⟨"LBASIS",    0xFF, 0b00010010, .lbasis⟩,
    ⟨"LINTERP",   0xFF, 0b00010011, .linterp⟩,
    ⟨"LINTERP0",  0xFF, 0b00010100, .linterp0⟩,
    ⟨"PBUILD",    0xFF, 0b00010101, .pbuild⟩,
    ⟨"SPLIT",     0xFF, 0b00100000, .split⟩,
    ⟨"COMBINE",   0xFF, 0b00100001, .combine⟩ ]

/-- The first row of `rows` that the byte matches. -/
def matchRow (b : Byte) : List OpcodeRow → Decoded
  | [] => .illegal b
  | r :: rows => if b &&& r.mask = r.value then .instr r.instr else matchRow b rows

/-- Decode a command byte, on the byte alone (R101). Every byte no row matches is an illegal opcode (R104). -/
def decode (b : Byte) : Decoded := matchRow b opcodeTable

/-- The opcode of a command (R102). -/
def encode : Instr → Byte
  | .gfadd => 0x01
  | .gfsub => 0x02
  | .gfxtime => 0x03
  | .gfmul => 0x04
  | .gfpow => 0x05
  | .gfinv => 0x06
  | .gfdiv => 0x07
  | .peval => 0x10
  | .xdistinct => 0x11
  | .lbasis => 0x12
  | .linterp => 0x13
  | .linterp0 => 0x14
  | .pbuild => 0x15
  | .split => 0x20
  | .combine => 0x21

/-- The mnemonic of a command (R105). -/
def mnemonic : Instr → String
  | .gfadd => "GFADD"
  | .gfsub => "GFSUB"
  | .gfxtime => "GFXTIME"
  | .gfmul => "GFMUL"
  | .gfpow => "GFPOW"
  | .gfinv => "GFINV"
  | .gfdiv => "GFDIV"
  | .peval => "PEVAL"
  | .xdistinct => "XDISTINCT"
  | .lbasis => "LBASIS"
  | .linterp => "LINTERP"
  | .linterp0 => "LINTERP0"
  | .pbuild => "PBUILD"
  | .split => "SPLIT"
  | .combine => "COMBINE"

/-- The host's question: which instruction is the one whose bits are `w`? A command is one byte, the low eight bits. -/
def decodeTableWord (_nbits w : Nat) : Option Instr :=
  match decode (BitVec.ofNat 8 w) with
  | .instr i => some i
  | .illegal _ => none

/-- The host address of a location's first byte (R63; for buffers this is `addr_of`, R71). -/
def Loc.addr : Loc → Nat
  | .cmd => 0x00
  | .status => 0x01
  | .errcode => 0x02
  | .res => 0x03
  | .opa => 0x04
  | .opb => 0x05
  | .deg => 0x06
  | .ctrl => 0x07
  | .exp => 0x08
  | .xcnt => 0x0C
  | .ycnt => 0x0D
  | .t => 0x0E
  | .n => 0x0F
  | .scnt => 0x10
  | .slen => 0x12
  | .coef k => 0x0100 + k
  | .xs i => 0x0200 + i
  | .ys i => 0x0300 + i
  | .shIdx s => 0x0400 + s
  | .shLen s => 0x0600 + 2 * s
  | .sec p => 0x00010000 + p
  | .shData s p => 0x01000000 + s * 0x00010000 + p

/-- The scalar register at an address, with the number of the byte inside it (R63). -/
def registerAt (a : Nat) : Option (Loc × Nat) :=
  match a with
  | 0x00 => some (.cmd, 0)
  | 0x01 => some (.status, 0)
  | 0x02 => some (.errcode, 0)
  | 0x03 => some (.res, 0)
  | 0x04 => some (.opa, 0)
  | 0x05 => some (.opb, 0)
  | 0x06 => some (.deg, 0)
  | 0x07 => some (.ctrl, 0)
  | 0x08 => some (.exp, 0)
  | 0x09 => some (.exp, 1)
  | 0x0A => some (.exp, 2)
  | 0x0B => some (.exp, 3)
  | 0x0C => some (.xcnt, 0)
  | 0x0D => some (.ycnt, 0)
  | 0x0E => some (.t, 0)
  | 0x0F => some (.n, 0)
  | 0x10 => some (.scnt, 0)
  | 0x12 => some (.slen, 0)
  | 0x13 => some (.slen, 1)
  | _ => none

/-- The buffer element at an address, with the number of the byte inside it, in an instance with LMAX = `lmax` (R63). -/
def bufferAt (lmax a : Nat) : Option (Loc × Nat) :=
  if 0x0100 ≤ a ∧ a < 0x0200 then some (.coef (a - 0x0100), 0)
  else if 0x0200 ≤ a ∧ a < 0x02FF then some (.xs (a - 0x0200), 0)
  else if 0x0300 ≤ a ∧ a < 0x03FF then some (.ys (a - 0x0300), 0)
  else if 0x0400 ≤ a ∧ a < 0x04FF then some (.shIdx (a - 0x0400), 0)
  else if 0x0600 ≤ a ∧ a < 0x07FE then some (.shLen ((a - 0x0600) / 2), (a - 0x0600) % 2)
  else if 0x00010000 ≤ a ∧ a < 0x00010000 + lmax then some (.sec (a - 0x00010000), 0)
  else if 0x01000000 ≤ a ∧ a < 0x01FF0000 ∧ a % 0x00010000 < lmax then
    some (.shData ((a - 0x01000000) / 0x00010000) (a % 0x00010000), 0)
  else none

/-- Decode a host address in an instance with LMAX = `lmax`: the location it belongs to and the number of the byte inside it,
or none for an unmapped address (R63, R65). -/
def locAt (lmax a : Nat) : Option (Loc × Nat) :=
  if a < 0x0100 then registerAt a else bufferAt lmax a

/-- The address belongs to a buffer element. -/
def isBufferAddr (lmax a : Nat) : Bool :=
  match locAt lmax a with
  | some (l, _) => l.isBuffer
  | none => false

/-- Byte number `j` of a value, byte 0 the lowest (R67). -/
def natByte (v j : Nat) : Byte := BitVec.ofNat 8 (v / 256 ^ j)

/-- The transactions a statement stands for (R106): one write or read per byte, lowest address first, little-endian; a
mnemonic is the write of its opcode to CMD. -/
def Stmt.encode : Stmt → List HostMove
  | .wr loc v =>
      (List.range loc.width).map fun j => .write (BitVec.ofNat 32 (loc.addr + j)) (natByte v j)
  | .rd loc => (List.range loc.width).map fun j => .read (BitVec.ofNat 32 (loc.addr + j))
  | .command i => [.write (BitVec.ofNat 32 (Loc.addr .cmd)) (Sys2Proof.encode i)]

end Sys2Proof
end

