-- ==== Sys2Proof/Machine/State.lean ====
section
/-!
DEFINITION. The state of SSS-CORE (spec/10_state.md R20: the scalar registers of R21 to R34 and the buffers of R35 to R42)
as plain data, what can stop a step, and the state after reset (R45). CMD holds no value (R26), so it has no field.
The first field is the instance's parameter LMAX (R6, assumption log 5).
The last five fields are the model's own, not the spec's: they hold what the agents outside the ENGINE do
(R7: the HOST and the RNG) and what the ports have shown. Assumption log 1, 2 and 3.
-/

namespace Sys2Proof.Machine

/-- The three error kinds (spec/60_exceptions.md R210). -/
inductive Kind where
  | domain
  | validation
  | invariant
  deriving DecidableEq, Repr

/-- The causes of error (spec/60_exceptions.md R211), in the order of their codes. -/
inductive Cause where
  | valIllegalCmd
  | domInvZero
  | domDivZero
  | valTRange
  | valNRange
  | valTGtN
  | valSecretEmpty
  | valLenRange
  | valXCount
  | valXZero
  | valXDup
  | valSharesEmpty
  | valIdxZero
  | valIdxDup
  | valShareLenMismatch
  | valShareLenZero
  | valRngShort
  | valXyMismatch
  | valPointsEmpty
  | invZeroDenom
  | valBasisIndex
  deriving DecidableEq, Repr

/-- Why a step stops. Errors of the hardware are no faults: they are outcomes recorded in STATUS and ERRCODE (R213). -/
inductive Fault where
  /-- Raised by PBUILD and SPLIT when the randomness source never answers a request: "the command never finishes",
  "A model must not give the ENGINE a step that gets past an unanswered request" (spec/20_memory.md R85). Safe. -/
  | rngUnanswered
  deriving DecidableEq, Repr

/-- Why an instruction is refused. -/
inductive Refusal where
  /-- Raised by an arm of `exec` whose instruction has no meaning yet; no arm does so now. Safe. -/
  | notModelled (mnemonic : String)
  deriving DecidableEq, Repr

/-- A closed request on the randomness port: `len` bytes were asked for and `taken` were accepted
(spec/20_memory.md R81, R84). -/
structure RngRequest where
  len   : Nat
  taken : Nat
  deriving DecidableEq, Repr

/-- The buffers' memory: the bytes written since the last reset, by host address, addresses strictly rising. -/
abbrev Memory := List Host.Cell

/-- The state of the machine. -/
structure State where
  /-- PARAMETER, not a register: LMAX of this instance of the hardware (spec/00_scope.md R6: "a named parameter the model takes
  as an argument"). `exec` and `step` take it with the state, and no step changes it (log 5). -/
  lmax    : Lmax
  /-- STATUS (R27): bits 1:0 KIND, bit 7 DONE, bits 6:2 reserved. -/
  status  : Byte
  /-- ERRCODE (R28). -/
  errcode : Byte
  /-- RES (R23). -/
  res     : Byte
  /-- OPA and OPB (R21). -/
  opa     : Byte
  opb     : Byte
  /-- DEG (R30). -/
  deg     : Byte
  /-- CTRL (R29): bit 0 XEXPL, bits 7:1 reserved. -/
  ctrl    : Byte
  /-- EXP (R22). -/
  exp     : BitVec Config.expW
  /-- XCNT and YCNT (R31). -/
  xcnt    : Byte
  ycnt    : Byte
  /-- T and N (R32). -/
  t       : Byte
  n       : Byte
  /-- SCNT (R33). -/
  scnt    : Byte
  /-- SLEN (R34). -/
  slen    : Half
  /-- The buffers COEF, XS, YS, SEC, SH_IDX, SH_LEN and SH_DATA (R35 to R42), byte by byte at their host addresses. -/
  mem     : Memory
  /-- MODEL'S OWN: how many resets there have been; it selects the bytes unwritten buffer elements hold (log 3). -/
  epoch   : Nat
  /-- MODEL'S OWN: the answers the randomness source gives to the next requests, first one first (log 2). -/
  rng     : List RngAnswer
  /-- MODEL'S OWN: the requests closed so far, latest first (log 2). -/
  rngLog  : List RngRequest
  /-- MODEL'S OWN: the moves the outside world makes next, first one first (log 1). -/
  host    : List HostMove
  /-- MODEL'S OWN: the response to the host transaction completed last, none before the first (log 1). -/
  resp    : Option HostResponse
  deriving DecidableEq, Repr

/-- The state after reset (R45, spec/70_reset_and_hazards.md R250): every scalar register 0, every buffer element
unspecified (nothing is written), no transaction outstanding; LMAX is this hardware's (R6). -/
def State.reset : State where
  lmax := Config.lmax
  status := 0x00
  errcode := 0x00
  res := 0x00
  opa := 0x00
  opb := 0x00
  deg := 0x00
  ctrl := 0x00
  exp := 0x00000000
  xcnt := 0x00
  ycnt := 0x00
  t := 0x00
  n := 0x00
  scnt := 0x00
  slen := 0x0000
  mem := []
  epoch := 0
  rng := []
  rngLog := []
  host := []
  resp := none

end Sys2Proof.Machine
end

