-- ==== Sys2Proof/Machine/Flags.lean ====
section
/-!
DEFINITION. What a completing command leaves in STATUS and ERRCODE (spec/10_state.md R27, R28; spec/60_exceptions.md R210,
R211). There are no arithmetic flags, condition codes or predicates (R25).
-/

namespace Sys2Proof.Machine

/-- STATUS.KIND of an error kind (R27, R210). -/
def kindCode : Kind → BitVec 2
  | .domain => 1
  | .validation => 2
  | .invariant => 3

/-- The kind of a cause (R211). -/
def causeKind : Cause → Kind
  | .domInvZero => .domain
  | .domDivZero => .domain
  | .invZeroDenom => .invariant
  | .valIllegalCmd | .valTRange | .valNRange | .valTGtN | .valSecretEmpty | .valLenRange | .valXCount | .valXZero
  | .valXDup | .valSharesEmpty | .valIdxZero | .valIdxDup | .valShareLenMismatch | .valShareLenZero | .valRngShort
  | .valXyMismatch | .valPointsEmpty | .valBasisIndex => .validation

/-- ERRCODE of a cause (R211). -/
def causeCode : Cause → Byte
  | .valIllegalCmd => 0x01
  | .domInvZero => 0x10
  | .domDivZero => 0x11
  | .valTRange => 0x20
  | .valNRange => 0x21
  | .valTGtN => 0x22
  | .valSecretEmpty => 0x23
  | .valLenRange => 0x24
  | .valXCount => 0x25
  | .valXZero => 0x26
  | .valXDup => 0x27
  | .valSharesEmpty => 0x28
  | .valIdxZero => 0x29
  | .valIdxDup => 0x2A
  | .valShareLenMismatch => 0x2B
  | .valShareLenZero => 0x2C
  | .valRngShort => 0x2D
  | .valXyMismatch => 0x2E
  | .valPointsEmpty => 0x2F
  | .invZeroDenom => 0x30
  | .valBasisIndex => 0x31

/-- STATUS after a command completed: DONE = 1, the reserved bits 0, and KIND (R27). -/
def statusDone (kind : BitVec 2) : Byte := (1 : BitVec 1) ++ (0 : BitVec 5) ++ kind

/-- STATUS.KIND (R27). -/
def statusKind (status : Byte) : BitVec 2 := status.extractLsb' 0 2

/-- STATUS.DONE (R27). -/
def statusIsDone (status : Byte) : Bool := status.getLsbD 7

/-- What a host read of STATUS returns: DONE, five zeros, KIND (spec/20_memory.md R66). -/
def statusRead (status : Byte) : Byte :=
  status.extractLsb' 7 1 ++ (0 : BitVec 5) ++ status.extractLsb' 0 2

/-- CTRL.XEXPL (R29). -/
def ctrlXexpl (ctrl : Byte) : Bool := ctrl.getLsbD 0

/-- What a host read of CTRL returns, and what a host write stores: XEXPL under seven zeros (spec/20_memory.md R66). -/
def ctrlKeep (v : Byte) : Byte := (0 : BitVec 7) ++ v.extractLsb' 0 1

end Sys2Proof.Machine
end

