-- ==== Sys2Proof/Machine/Ops.lean ====
section
/-!
DEFINITION. The named operations over memory and registers: reading and writing the buffers' bytes, ending a command with
success (spec/60_exceptions.md R212) or by raising an error (R213), and a request to the randomness source
(spec/20_memory.md R81 to R87).
-/

namespace Sys2Proof.Machine

/-- The outcome of a step of this machine. -/
abbrev Outcome := Host.Outcome State Fault Refusal

/-- The outcome of a part of a command that may ask for random bytes: it ends with a value, it raises an error, or the
source never answers (R85). The state differs from the one before by the closed requests alone (R87). -/
inductive EngineResult (α : Type) where
  | done (a : α) (s : State)
  | raised (c : Cause) (s : State)
  | hung

/-! ### The buffers' memory -/

/-- The addresses strictly rise: the one canonical form of a memory. -/
def memWf : Memory → Bool
  | [] => true
  | [_] => true
  | c :: d :: m => decide (c.1 < d.1) && memWf (d :: m)

/-- The byte written at an address since the last reset, if there is one. -/
def memLookup : Memory → Nat → Option Byte
  | [], _ => none
  | c :: m, a => if c.1 = a then some c.2 else memLookup m a

/-- Write a byte at an address, keeping the addresses rising. -/
def memInsert : Memory → Nat → Byte → Memory
  | [], a, v => [(a, v)]
  | c :: m, a, v =>
      if a < c.1 then (a, v) :: c :: m
      else if a = c.1 then (a, v) :: m
      else c :: memInsert m a v

/-- Write consecutive bytes, the first at `a`. -/
def memInsertList (m : Memory) (a : Nat) : List Byte → Memory
  | [] => m
  | v :: vs => memInsertList (memInsert m a v) (a + 1) vs

/-- What an address reads as when nothing has been written there since the last reset: the power-on byte, a free value
(spec/10_state.md R45, spec/70_reset_and_hazards.md R255, assumption log 3). -/
def unlistedByte (epoch a : Nat) : Byte := Config.powerOnByte epoch a

/-- The byte a buffer holds at host address `a`. -/
def bufferByte (s : State) (a : Nat) : Byte :=
  (memLookup s.mem a).getD (unlistedByte s.epoch a)

/-- The bytes of a 16-bit value, low byte first (R67). -/
def halfBytes (v : Half) : List Byte := [v.extractLsb' 0 8, v.extractLsb' 8 8]

/-! ### Ending a command -/

/-- The state of a command that completes successfully: KIND 0, DONE 1, ERRCODE 0 (R212). -/
def succeed (s : State) : State := { s with status := statusDone 0, errcode := 0x00 }

/-- The state of a command that raises an error: the cause's kind, DONE 1, its code, and nothing else (R213). -/
def failWith (s : State) (c : Cause) : State :=
  { s with status := statusDone (kindCode (causeKind c)), errcode := causeCode c }

/-- End a command with success (R212). -/
def finish (s : State) : Outcome := .next (succeed s)

/-- `raise Kind(CODE)` (R213): taking an exception on this hardware; there is no trap and no handler (R220). -/
def raise (s : State) (c : Cause) : Outcome := .next (failWith s c)

/-- The state with a new RES. -/
def setRes (s : State) (v : Byte) : State := { s with res := v }

/-- The state with a new buffer memory. -/
def setMem (s : State) (m : Memory) : State := { s with mem := m }

/-- The state with a new SLEN. -/
def setSlen (s : State) (v : Half) : State := { s with slen := v }

/-- End a scalar-result command: RES gets the result (spec/10_state.md R23). -/
def finishRes (s : State) (v : Byte) : Outcome := finish (setRes s v)

/-- End a scalar-result command whose value may be missing because of `c`. -/
def finishResOr (s : State) (c : Cause) : Option Byte → Outcome
  | some v => finishRes s v
  | none => raise s c

/-! ### The randomness port -/

/-- The answer to the request the ENGINE makes `j` requests from now, `len` bytes asked for (R81): the one listed in the
state, or a free value when none is listed. -/
def rngAnswerAt (s : State) (j len : Nat) : RngAnswer :=
  match s.rng[j]? with
  | some a => a
  | none => Config.rngAnswer (s.rngLog.length + j) len

/-- Close a request: the answer is used up and the request recorded with the bytes accepted (R84, R87). -/
def closeRequest (s : State) (len taken : Nat) : State :=
  { s with rng := s.rng.tail, rngLog := ⟨len, taken⟩ :: s.rngLog }

/-- `RngDraw(len)` (R81), which accepts at most `len` bytes (R83) and tests nothing of them but
their number (R86: "The arithmetic rules hold for any bytes"): the bytes accepted and the state after. There is no
next state where the source never answers (R85). -/
def rngDraw (s : State) (len : Nat) : Option (List Byte × State) :=
  match rngAnswerAt s 0 len with
  | .never => none
  | .bytes r => some (r.take len, closeRequest s len (min len r.length))

end Sys2Proof.Machine
end

