-- ==== Sys2Proof/Machine/Galois.lean ====
section
/-!
DEFINITION. The field functions of GF(256) with reduction polynomial 0x11B (spec/00_scope.md R3; spec/40_field.md R120 to
R126).
-/

namespace Sys2Proof.Machine

/-- R120. -/
def gfAdd (a b : Byte) : Byte := a ^^^ b

/-- R121: the same function as `gfAdd`. -/
def gfSub (a b : Byte) : Byte := a ^^^ b

/-- R122: shift left one bit and, if the bit shifted out was 1, add 0x1B. -/
def gfXtime (a : Byte) : Byte :=
  if a.getLsbD 7 then (a <<< 1) ^^^ 0x1B else a <<< 1

/-- The loop of R123 for `k` more bits of `b`, with running product `p`. -/
def gfMulLoop : Nat → Byte → Byte → Byte → Byte
  | 0, _, _, p => p
  | k + 1, a, b, p => gfMulLoop k (gfXtime a) (b >>> 1) (if b.getLsbD 0 then p ^^^ a else p)

/-- R123, over the eight bits of `b`: "running it exactly 8 times gives the same `p`". -/
def gfMul (a b : Byte) : Byte := gfMulLoop 8 a b 0

/-- The loop of R124 for `k` more bits of `e`, with running result `r`. -/
def gfPowLoop : Nat → Byte → BitVec Config.expW → Byte → Byte
  | 0, _, _, r => r
  | k + 1, a, e, r => gfPowLoop k (gfMul a a) (e >>> 1) (if e.getLsbD 0 then gfMul r a else r)

/-- R124: square and multiply over the EXPW bits of `e`, from bit 0 up. -/
def gfPow (a : Byte) (e : BitVec Config.expW) : Byte := gfPowLoop Config.expW a e 1

/-- R125: no value for 0. -/
def gfInv (a : Byte) : Option Byte := if a = 0 then none else some (gfPow a 254)

/-- R126: no value for a zero divisor. -/
def gfDiv (a b : Byte) : Option Byte := (gfInv b).map (gfMul a)

end Sys2Proof.Machine
end

