-- ==== Sys2Proof/Machine/Operands.lean ====
section
/-!
DEFINITION. The operands of the commands (spec/30_encoding.md R103): fixed registers, and buffer elements read at `addr_of`
(spec/20_memory.md R71). These are all the operand forms there are: a command has no operand field and no addressing mode.
-/

namespace Sys2Proof.Machine

/-- The byte of a one-byte buffer element. -/
def elemByte (s : State) (l : Loc) : Byte := bufferByte s l.addr

/-- `poly`: COEF[0..DEG], lowest degree first (R30, R35). -/
def polyOperand (s : State) : List Byte :=
  (List.range (s.deg.toNat + 1)).map fun k => elemByte s (.coef k)

/-- XS[0..k-1] (R36). -/
def xsOperand (s : State) (k : Nat) : List Byte := (List.range k).map fun i => elemByte s (.xs i)

/-- YS[0..k-1] (R37). -/
def ysOperand (s : State) (k : Nat) : List Byte := (List.range k).map fun i => elemByte s (.ys i)

/-- The secret of SPLIT: SEC[0..SLEN-1] (R34, R38). -/
def secretOperand (s : State) : List Byte := (List.range s.slen.toNat).map fun p => elemByte s (.sec p)

/-- SH_IDX[0..k-1] (R40). -/
def shareIndices (s : State) (k : Nat) : List Byte := (List.range k).map fun i => elemByte s (.shIdx i)

/-- SH_LEN[i], two bytes little-endian (R41, R67). -/
def shareLen (s : State) (i : Nat) : Half :=
  bufferByte s (Loc.addr (.shLen i) + 1) ++ bufferByte s (Loc.addr (.shLen i))

/-- SH_LEN[0..k-1]. -/
def shareLens (s : State) (k : Nat) : List Half := (List.range k).map (shareLen s)

/-- Byte `p` of the shares in slots 0 to k-1 (R42). -/
def shareColumn (s : State) (k p : Nat) : List Byte := (List.range k).map fun i => elemByte s (.shData i p)

/-- The default x-values 1, 2, ..., n (spec/42_split_combine.md R182). -/
def defaultXs (n : Nat) : List Byte := (List.range n).map fun s => BitVec.ofNat 8 (s + 1)

/-- The x-values in force for SPLIT: XS[0..N-1] when CTRL.XEXPL = 1, else the default ones (R182). -/
def splitXs (s : State) : List Byte :=
  if ctrlXexpl s.ctrl then xsOperand s s.n.toNat else defaultXs s.n.toNat

/-- Write COEF[0], COEF[1], ... (R35). -/
def writePoly (s : State) (c : List Byte) : State :=
  setMem s (memInsertList s.mem (Loc.addr (.coef 0)) c)

/-- Write SEC[0], SEC[1], ... (R38). -/
def writeSecret (s : State) (bytes : List Byte) : State :=
  setMem s (memInsertList s.mem (Loc.addr (.sec 0)) bytes)

/-- Write slot `i`: SH_IDX[i], SH_LEN[i] and SH_DATA[i][0..] (R40 to R42, R185). -/
def writeSlot (m : Memory) (i : Nat) (x : Byte) (len : Half) (bytes : List Byte) : Memory :=
  memInsertList
    (memInsertList (memInsert m (Loc.addr (.shIdx i)) x) (Loc.addr (.shLen i)) (halfBytes len))
    (Loc.addr (.shData i 0)) bytes

end Sys2Proof.Machine
end

