-- ==== Sys2Proof/Machine/Field.lean ====
section
/-!
DEFINITION. The meanings of the Field family (spec/40_field.md R130 to R136).
-/

namespace Sys2Proof.Machine

/-- GFADD (R130). -/
def execGfadd (s : State) : Outcome := finishRes s (gfAdd s.opa s.opb)

/-- GFSUB (R131). -/
def execGfsub (s : State) : Outcome := finishRes s (gfSub s.opa s.opb)

/-- GFXTIME (R132). -/
def execGfxtime (s : State) : Outcome := finishRes s (gfXtime s.opa)

/-- GFMUL (R133). -/
def execGfmul (s : State) : Outcome := finishRes s (gfMul s.opa s.opb)

/-- GFPOW (R134). -/
def execGfpow (s : State) : Outcome := finishRes s (gfPow s.opa s.exp)

/-- GFINV (R135). -/
def execGfinv (s : State) : Outcome := finishResOr s .domInvZero (gfInv s.opa)

/-- GFDIV (R136). -/
def execGfdiv (s : State) : Outcome := finishResOr s .domDivZero (gfDiv s.opa s.opb)

end Sys2Proof.Machine
end

