-- ==== Sys2Proof/Machine/Lagrange.lean ====
section
/-!
DEFINITION. The polynomial functions (spec/41_polynomial.md R150 to R154). A polynomial is the list of its coefficients,
the constant term first; a point set is the list of its x-values and the list of its y-values.
-/

namespace Sys2Proof.Machine

/-- R150: Horner's method from the highest degree to the constant term, the accumulator starting at 0. -/
def horner (c : List Byte) (x : Byte) : Byte := c.foldr (fun coeff acc => gfAdd (gfMul acc x) coeff) 0

/-- R151: no two of the x-values are equal. -/
def distinct : List Byte → Bool
  | [] => true
  | x :: xs => xs.all (fun y => decide (x ≠ y)) && distinct xs

/-- The loop of R152 from index `j` on, for the basis index `i` with `xi` = xs[i]: the products of the numerator factors
and of the denominator terms, or none when a denominator term is zero. -/
def lagTerms (factor : Byte → Byte) (xi : Byte) (i : Nat) : Nat → List Byte → Byte → Byte → Option (Byte × Byte)
  | _, [], num, den => some (num, den)
  | j, x :: xs, num, den =>
      if j = i then lagTerms factor xi i (j + 1) xs num den
      else if xi ^^^ x = 0 then none
      else lagTerms factor xi i (j + 1) xs (gfMul num (factor x)) (gfMul den (xi ^^^ x))

/-- The quotient of R152's two products. -/
def lagQuotient (factor : Byte → Byte) (xs : List Byte) (i : Nat) : Option Byte :=
  match lagTerms factor (xs.getD i 0) i 0 xs 1 1 with
  | none => none
  | some (num, den) => some (gfMul num (gfPow den 254))

/-- R152, L_i(X): none is the internal-invariant error (a zero denominator term). -/
def lagBasis (xs : List Byte) (i : Nat) (X : Byte) : Option Byte := lagQuotient (fun x => X ^^^ x) xs i

/-- L_i(0) in the form of R154, which carries no X: the numerator factors are the x-values themselves. -/
def lagBasisZero (xs : List Byte) (i : Nat) : Option Byte := lagQuotient (fun x => x) xs i

/-- The sum of `gf_mul(y_i, basis i)` over the y-values from index `i` on, on top of `acc`. -/
def lagSum (basis : Nat → Option Byte) : Nat → List Byte → Byte → Option Byte
  | _, [], acc => some acc
  | i, y :: ys, acc =>
      match basis i with
      | none => none
      | some l => lagSum basis (i + 1) ys (acc ^^^ gfMul y l)

/-- R153: interpolation at X. -/
def lagAt (xs ys : List Byte) (X : Byte) : Option Byte := lagSum (fun i => lagBasis xs i X) 0 ys 0

/-- R154: interpolation at zero. -/
def lagAtZero (xs ys : List Byte) : Option Byte := lagSum (lagBasisZero xs) 0 ys 0

end Sys2Proof.Machine
end

