-- ==== Sys2Proof/Machine/Polynomial.lean ====
section
/-!
DEFINITION. The meanings of the Polynomial family (spec/41_polynomial.md R160 to R165).
-/

namespace Sys2Proof.Machine

/-- PEVAL (R160). -/
def execPeval (s : State) : Outcome := finishRes s (horner (polyOperand s) s.opa)

/-- XDISTINCT (R161): the outcome is STATUS and ERRCODE alone. -/
def execXdistinct (s : State) : Outcome :=
  if distinct (xsOperand s s.xcnt.toNat) then finish s else raise s .valXDup

/-- LBASIS (R162). -/
def execLbasis (s : State) : Outcome :=
  if s.xcnt.toNat ≤ s.opb.toNat then raise s .valBasisIndex
  else finishResOr s .invZeroDenom (lagBasis (xsOperand s s.xcnt.toNat) s.opb.toNat s.opa)

/-- The checks LINTERP and LINTERP0 share, in their order (R163, R164): the first cause that applies. -/
def pointsCheck (s : State) : Option Cause :=
  if s.xcnt ≠ s.ycnt then some .valXyMismatch
  else if s.xcnt = 0 then some .valPointsEmpty
  else if distinct (xsOperand s s.xcnt.toNat) = false then some .valXDup
  else none

/-- LINTERP (R163). After the checks no denominator is zero, so the last cause is never raised. -/
def execLinterp (s : State) : Outcome :=
  match pointsCheck s with
  | some c => raise s c
  | none =>
      finishResOr s .invZeroDenom (lagAt (xsOperand s s.xcnt.toNat) (ysOperand s s.xcnt.toNat) s.opa)

/-- LINTERP0 (R164). After the checks no denominator is zero, so the last cause is never raised. -/
def execLinterp0 (s : State) : Outcome :=
  match pointsCheck s with
  | some c => raise s c
  | none =>
      finishResOr s .invZeroDenom (lagAtZero (xsOperand s s.xcnt.toNat) (ysOperand s s.xcnt.toNat))

/-- `buildPolynomial` (R165, used by PBUILD and SPLIT): the constant term, then `d` drawn bytes in the order they come, whatever
they are, zero included (spec/20_memory.md R86).
No request is made for degree 0 (R83). -/
def buildPoly (s : State) (secret : Byte) (d : Nat) : EngineResult (List Byte) :=
  if d = 0 then .done [secret] s
  else
    match rngDraw s d with
    | none => .hung
    | some (r, s') => if r.length < d then .raised .valRngShort s' else .done (secret :: r) s'

/-- PBUILD (R165). -/
def execPbuild (s : State) : Outcome :=
  match buildPoly s s.opa s.deg.toNat with
  | .done c s' => finish (writePoly s' c)
  | .raised c s' => raise s' c
  | .hung => .fault .rngUnanswered

end Sys2Proof.Machine
end

