-- ==== Sys2Proof/Machine/Sequencer.lean ====
section
/-!
DEFINITION. The meanings of the Sequencer family: SPLIT (spec/42_split_combine.md R180 to R185) and COMBINE (R190 to R192).
-/

namespace Sys2Proof.Machine

/-- The checks of SPLIT that come before any request for random bytes, in their order (R180 to R182). -/
def splitCheck (s : State) : Option Cause :=
  if s.slen = 0 then some .valSecretEmpty
  else if s.lmax.val < s.slen.toNat then some .valLenRange
  else if s.t = 0 then some .valTRange
  else if s.n = 0 then some .valNRange
  else if s.n.toNat < s.t.toNat then some .valTGtN
  else if ctrlXexpl s.ctrl then
    if s.xcnt ≠ s.n then some .valXCount
    else if (splitXs s).any (fun x => decide (x = 0)) then some .valXZero
    else if distinct (splitXs s) = false then some .valXDup
    else none
  else none

/-- The per-position pass of SPLIT (R183, R184): one fresh polynomial of degree `d` for each byte of the secret, in
ascending position order. -/
def drawPolys (s : State) (d : Nat) : List Byte → EngineResult (List (List Byte))
  | [] => .done [] s
  | b :: bs =>
      match buildPoly s b d with
      | .hung => .hung
      | .raised c s' => .raised c s'
      | .done c s' =>
          match drawPolys s' d bs with
          | .hung => .hung
          | .raised c' s'' => .raised c' s''
          | .done cs s'' => .done (c :: cs) s''

/-- Write the slots from slot `i` on, one for each x-value (R185): the bytes of the share with x-value `x` are the values
at `x` of the positions' polynomials. -/
def writeSlots (m : Memory) (i : Nat) (len : Half) (polys : List (List Byte)) : List Byte → Memory
  | [] => m
  | x :: xs => writeSlots (writeSlot m i x len (polys.map fun c => horner c x)) (i + 1) len polys xs

/-- SPLIT (R180). -/
def execSplit (s : State) : Outcome :=
  match splitCheck s with
  | some c => raise s c
  | none =>
      match drawPolys s (s.t.toNat - 1) (secretOperand s) with
      | .hung => .fault .rngUnanswered
      | .raised c s' => raise s' c
      | .done polys s' => finish (setMem s' (writeSlots s'.mem 0 s.slen polys (splitXs s)))

/-- The checks of COMBINE, in their order (R190, R191). -/
def combineCheck (s : State) : Option Cause :=
  let k := s.scnt.toNat
  if k = 0 then some .valSharesEmpty
  else if (shareIndices s k).any (fun x => decide (x = 0)) then some .valIdxZero
  else if distinct (shareIndices s k) = false then some .valIdxDup
  else if (shareLens s k).any (fun l => decide (l ≠ shareLen s 0)) then some .valShareLenMismatch
  else if shareLen s 0 = 0 then some .valShareLenZero
  else if s.lmax.val < (shareLen s 0).toNat then some .valLenRange
  else none

/-- The per-position pass of COMBINE (R192) over the given positions: none when a denominator is zero, which the checks
rule out. -/
def combineBytes (s : State) (k : Nat) : List Nat → Option (List Byte)
  | [] => some []
  | p :: ps =>
      match lagAtZero (shareIndices s k) (shareColumn s k p), combineBytes s k ps with
      | some b, some bs => some (b :: bs)
      | _, _ => none

/-- COMBINE (R190). After the checks no denominator is zero, so the last cause is never raised. -/
def execCombine (s : State) : Outcome :=
  match combineCheck s with
  | some c => raise s c
  | none =>
      match combineBytes s s.scnt.toNat (List.range (shareLen s 0).toNat) with
      | none => raise s .invZeroDenom
      | some bytes => finish (writeSecret (setSlen s (shareLen s 0)) bytes)

end Sys2Proof.Machine
end

