-- ==== Sys2Proof/Machine/Dispatch.lean ====
section
/-!
DEFINITION. Dispatch: one arm per command of spec/opcode_table.json, each a call of that command's meaning.
-/

namespace Sys2Proof.Machine

def exec (i : Instr) (s : State) : Host.Outcome State Fault Refusal :=
  match i with
  | .gfadd => Sys2Proof.Machine.execGfadd s
  | .gfsub => Sys2Proof.Machine.execGfsub s
  | .gfxtime => Sys2Proof.Machine.execGfxtime s
  | .gfmul => Sys2Proof.Machine.execGfmul s
  | .gfpow => Sys2Proof.Machine.execGfpow s
  | .gfinv => Sys2Proof.Machine.execGfinv s
  | .gfdiv => Sys2Proof.Machine.execGfdiv s
  | .peval => Sys2Proof.Machine.execPeval s
  | .xdistinct => Sys2Proof.Machine.execXdistinct s
  | .lbasis => Sys2Proof.Machine.execLbasis s
  | .linterp => Sys2Proof.Machine.execLinterp s
  | .linterp0 => Sys2Proof.Machine.execLinterp0 s
  | .pbuild => Sys2Proof.Machine.execPbuild s
  | .split => Sys2Proof.Machine.execSplit s
  | .combine => Sys2Proof.Machine.execCombine s

end Sys2Proof.Machine
end

