-- ==== Sys2Proof/Machine/HostPort.lean ====
section
/-!
DEFINITION. The host port (spec/20_memory.md R61 to R72), the reset input (spec/70_reset_and_hazards.md R250) and how the
next command comes to the ENGINE: a host write of its opcode to CMD (spec/30_encoding.md R101).
-/

namespace Sys2Proof.Machine

/-- What the outside world's next move does: it is settled without a command, or it launches one. -/
inductive Fetched where
  | settled (s : State)
  | launch (i : Instr) (s : State)

/-- Byte `j` of a register, byte 0 its bits 7:0 (R67). -/
def getByte {w : Nat} (v : BitVec w) (j : Nat) : Byte := v.extractLsb' (8 * j) 8

/-- The register with byte `j` replaced (R68). -/
def putByte {w : Nat} (v : BitVec w) (j : Nat) (b : Byte) : BitVec w :=
  (v &&& ~~~((0xFF#w) <<< (8 * j))) ||| (b.setWidth w <<< (8 * j))

/-- The content of a mapped host address, as a host read returns it (R66); none for an unmapped one. -/
def hostByte (s : State) (a : Nat) : Option Byte :=
  match locAt s.lmax.val a with
  | none => none
  | some (.cmd, _) => some 0x00
  | some (.status, _) => some (statusRead s.status)
  | some (.errcode, _) => some s.errcode
  | some (.res, _) => some s.res
  | some (.opa, _) => some s.opa
  | some (.opb, _) => some s.opb
  | some (.deg, _) => some s.deg
  | some (.ctrl, _) => some (ctrlKeep s.ctrl)
  | some (.exp, j) => some (getByte s.exp j)
  | some (.xcnt, _) => some s.xcnt
  | some (.ycnt, _) => some s.ycnt
  | some (.t, _) => some s.t
  | some (.n, _) => some s.n
  | some (.scnt, _) => some s.scnt
  | some (.slen, j) => some (getByte s.slen j)
  | some (.coef _, _) | some (.xs _, _) | some (.ys _, _) | some (.shIdx _, _) | some (.shLen _, _)
  | some (.sec _, _) | some (.shData _ _, _) => some (bufferByte s a)

/-- Store a byte at a mapped host address (R66): read-only locations discard it, CTRL keeps bit 0, every other location
stores all eight bits. None for an unmapped address. A write to CMD stores nothing; what it launches is not done here. -/
def hostStore (s : State) (a : Nat) (v : Byte) : Option State :=
  match locAt s.lmax.val a with
  | none => none
  | some (.cmd, _) | some (.status, _) | some (.errcode, _) | some (.res, _) => some s
  | some (.opa, _) => some { s with opa := v }
  | some (.opb, _) => some { s with opb := v }
  | some (.deg, _) => some { s with deg := v }
  | some (.ctrl, _) => some { s with ctrl := ctrlKeep v }
  | some (.exp, j) => some { s with exp := putByte s.exp j v }
  | some (.xcnt, _) => some { s with xcnt := v }
  | some (.ycnt, _) => some { s with ycnt := v }
  | some (.t, _) => some { s with t := v }
  | some (.n, _) => some { s with n := v }
  | some (.scnt, _) => some { s with scnt := v }
  | some (.slen, j) => some { s with slen := putByte s.slen j v }
  | some (.coef _, _) | some (.xs _, _) | some (.ys _, _) | some (.shIdx _, _) | some (.shLen _, _)
  | some (.sec _, _) | some (.shData _ _, _) => some (setMem s (memInsert s.mem a v))

/-- The `n` bytes from address `a` on all belong to one location, and `n` is 1, 2 or 4: where `MemRead` and `MemWrite` are
defined (R70). -/
def inOneLocation (lmax a n : Nat) : Bool :=
  decide (n = 1 ∨ n = 2 ∨ n = 4) &&
    match locAt lmax a with
    | none => false
    | some (l, _) => (List.range n).all fun k => decide ((locAt lmax (a + k)).map Prod.fst = some l)

/-- The little-endian value of `n` mapped bytes; none when one of them is unmapped. -/
def bytesValue (s : State) (a : Nat) : Nat → Option Nat
  | 0 => some 0
  | n + 1 =>
      match hostByte s a, bytesValue s (a + 1) n with
      | some b, some v => some (b.toNat + 256 * v)
      | _, _ => none

/-- Store the low `n` bytes of `v`, lowest first, each as a host write stores it, but that CMD launches nothing (assumption
log 15); none when one of the addresses is unmapped. -/
def storeBytes (s : State) (a : Nat) : Nat → Nat → Option State
  | 0, _ => some s
  | n + 1, v =>
      match hostStore s a (natByte v 0) with
      | some s' => storeBytes s' (a + 1) n (v / 256)
      | none => none

/-- `MemRead(addr, n)` (R70): the little-endian value of the `n` bytes, defined inside one location alone. -/
def memRead (s : State) (a n : Nat) : Option Nat := if inOneLocation s.lmax.val a n then bytesValue s a n else none

/-- `MemWrite(addr, n, v)` (R70): the low `n` bytes of `v`, lowest first, defined inside one location alone. DESIGN CHOICE
(assumption log 15): at CMD, STATUS, ERRCODE, RES and CTRL bits 7:1, which do not keep a written value, it is defined and
discards, as a host write does (R66); R70 leaves the point open. -/
def memWrite (s : State) (a n v : Nat) : Option State :=
  if inOneLocation s.lmax.val a n then storeBytes s a n v else none

/-- Show the response of a completed transaction on the port. -/
def respond (s : State) (r : HostResponse) : State := { s with resp := some r }

/-- `HostRead(addr)`: the byte, or the error response with data 0x00 and no change of state (R65, R66). -/
def busRead (s : State) (a : Nat) : State :=
  match hostByte s a with
  | some b => respond s (.readDone b false)
  | none => respond s (.readDone 0x00 true)

/-- `HostWrite(addr, byte)` elsewhere than to CMD: stored with response ok, or the error response and no change of state
(R65, R66). -/
def busWrite (s : State) (a : Nat) (v : Byte) : State :=
  match hostStore s a v with
  | some s' => respond s' (.writeDone false)
  | none => respond s (.writeDone true)

/-- A host write to CMD (R64, R101): the response is ok whatever the command does; a byte that is no opcode raises
VAL_ILLEGAL_CMD (R104). -/
def launchByte (s : State) (op : Byte) : Fetched :=
  match decode op with
  | .instr i => .launch i (respond s (.writeDone false))
  | .illegal _ => .settled (failWith (respond s (.writeDone false)) .valIllegalCmd)

/-- The reset input is pulsed between two transactions (R250): every scalar register 0 and every buffer element
unspecified afresh. The instance keeps its LMAX. What the outside agents are about to do is not the block's to reset. -/
def resetBlock (s : State) : State :=
  { State.reset with lmax := s.lmax, epoch := s.epoch + 1, host := s.host, rng := s.rng, rngLog := s.rngLog }

/-- Take one move of the outside world. -/
def acceptMove (s : State) : HostMove → Fetched
  | .read a => .settled (busRead s a.toNat)
  | .write a v => if a.toNat = Loc.addr .cmd then launchByte s v else .settled (busWrite s a.toNat v)
  | .reset => .settled (resetBlock s)

/-- The state with the moves still to come. -/
def setHost (s : State) (moves : List HostMove) : State := { s with host := moves }

/-- Take the next move of the outside world; with none, the block is idle and holds its state (R62, R245). -/
def fetch (s : State) : Fetched :=
  match s.host with
  | [] => .settled s
  | m :: moves => acceptMove (setHost s moves) m

/-- The write to CMD that runs the command whose opcode is the low eight bits of `w`. -/
def commandMove (w : Nat) : HostMove := .write (BitVec.ofNat 32 (Loc.addr .cmd)) (BitVec.ofNat 8 w)

end Sys2Proof.Machine
end

