-- ==== Sys2Proof/Machine/Step.lean ====
section
/-!
DEFINITION. One step: the outside world's next move, with the command it launches run to its end (spec/20_memory.md R62,
R64, R75; spec/00_scope.md R7, R12).
-/

namespace Sys2Proof.Machine

def step (s : State) : Host.Outcome State Fault Refusal :=
  match fetch s with
  | .settled t => .next t
  | .launch i t => exec i t

/-- The state in which the outside world's next move is the write to CMD of the command whose bits are `w`; nothing else
changes. A command is one byte whatever `nbits` says (spec/30_encoding.md R100). Assumption log 1. -/
def State.withFetchWord (s : State) (_nbits w : Nat) : State := setHost s (commandMove w :: s.host)

end Sys2Proof.Machine
end

