-- ==== Sys2Proof/Safety.lean ====
section
/-!
DEFINITION. The terms in which claims are made: the invariant of the machine, what a run that goes on is, when the
randomness source supplies what is asked for, and which locations each command reads and writes (spec/10_state.md R46).
-/

namespace Sys2Proof.Machine

/-- The step ends in a next state: it neither faults nor refuses. -/
def StepsOn (s : State) : Prop := ∃ t, step s = .next t

/-- KIND that goes with an ERRCODE (spec/60_exceptions.md R211); none for a code that is never produced. -/
def kindOfErrcode (c : Byte) : Option (BitVec 2) :=
  if c = 0x00 then some 0
  else if c = 0x10 ∨ c = 0x11 then some 1
  else if c = 0x30 then some 3
  else if c = 0x01 ∨ (0x20 ≤ c.toNat ∧ c.toNat ≤ 0x2F) ∨ c = 0x31 then some 2
  else none

/-- STATUS and ERRCODE are consistent (spec/10_state.md R27, R28): the reserved bits of STATUS are 0, KIND is the kind of
the code, and before the first command has completed both registers are 0. -/
def StatusInv (s : State) : Prop :=
  s.status.extractLsb' 2 5 = 0 ∧ kindOfErrcode s.errcode = some (statusKind s.status) ∧
    (statusIsDone s.status = false → s.status = 0x00 ∧ s.errcode = 0x00 ∧ s.res = 0x00)

/-- The reserved bits of CTRL are 0 (spec/10_state.md R29). -/
def CtrlInv (s : State) : Prop := s.ctrl.extractLsb' 1 7 = 0

/-- The buffers' memory is in canonical form and lists addresses of buffer elements alone (spec/20_memory.md R63). -/
def MemInv (s : State) : Prop := memWf s.mem = true ∧ ∀ c ∈ s.mem, isBufferAddr s.lmax.val c.1 = true

/-- Every request closed asked for 1 to 255 bytes and accepted no more than it asked for (spec/20_memory.md R81, R83). -/
def RngInv (s : State) : Prop := ∀ r ∈ s.rngLog, 1 ≤ r.len ∧ r.len ≤ 255 ∧ r.taken ≤ r.len

/-- LMAX is at least 1; that it is at most 65535 its type says (spec/00_scope.md R6). -/
def LmaxInv (s : State) : Prop := 1 ≤ s.lmax.val

/-- The invariant of the machine: it holds after reset and every step keeps it. -/
def State.Inv (s : State) : Prop := LmaxInv s ∧ StatusInv s ∧ CtrlInv s ∧ MemInv s ∧ RngInv s

/-- The source answers the next `k` requests, of `len` bytes each, in full; `answer j` is what it answers to the
(j+1)-th (spec/20_memory.md R81; that it answers at all is R85's assumption on the source). -/
def RngSupplies (s : State) (k len : Nat) (answer : Nat → List Byte) : Prop :=
  ∀ j < k, rngAnswerAt s j len = .bytes (answer j) ∧ len ≤ (answer j).length

/-- The state once the next `k` requests, of `len` bytes each, are closed and were answered in full. -/
def afterRequests (s : State) (k len : Nat) : State :=
  { s with rng := s.rng.drop k, rngLog := List.replicate k ⟨len, len⟩ ++ s.rngLog }

/-- The buffer elements a command may write in state `s` (spec/10_state.md R46, column "Writes on success"). -/
def writesElement (i : Instr) (s : State) (l : Loc) : Prop :=
  match i, l with
  | .pbuild, .coef k => k ≤ s.deg.toNat
  | .split, .shIdx j => j < s.n.toNat
  | .split, .shLen j => j < s.n.toNat
  | .split, .shData j p => j < s.n.toNat ∧ p < s.slen.toNat
  | .combine, .sec p => p < (shareLen s 0).toNat
  | _, _ => False

/-- The command is one of the eleven that write RES (spec/10_state.md R23). -/
def writesRes : Instr → Bool
  | .gfadd | .gfsub | .gfxtime | .gfmul | .gfpow | .gfinv | .gfdiv | .peval | .lbasis | .linterp | .linterp0 => true
  | .xdistinct | .pbuild | .split | .combine => false

/-- The registers the ENGINE never writes are the same in both states (spec/10_state.md R21, R22, R29 to R33). -/
def SameOperands (s t : State) : Prop :=
  t.opa = s.opa ∧ t.opb = s.opb ∧ t.exp = s.exp ∧ t.deg = s.deg ∧ t.ctrl = s.ctrl ∧ t.xcnt = s.xcnt ∧ t.ycnt = s.ycnt ∧
    t.t = s.t ∧ t.n = s.n ∧ t.scnt = s.scnt

/-- The two states hold the same in every location the command reads (spec/10_state.md R46, column "Reads"), and the
source will answer the command's requests alike. -/
def AgreeOnReads (i : Instr) (s u : State) : Prop :=
  match i with
  | .gfadd | .gfsub | .gfmul | .gfdiv => s.opa = u.opa ∧ s.opb = u.opb
  | .gfxtime | .gfinv => s.opa = u.opa
  | .gfpow => s.opa = u.opa ∧ s.exp = u.exp
  | .peval => s.opa = u.opa ∧ s.deg = u.deg ∧ ∀ k ≤ s.deg.toNat, elemByte s (.coef k) = elemByte u (.coef k)
  | .xdistinct => s.xcnt = u.xcnt ∧ ∀ j < s.xcnt.toNat, elemByte s (.xs j) = elemByte u (.xs j)
  | .lbasis =>
      s.opa = u.opa ∧ s.opb = u.opb ∧ s.xcnt = u.xcnt ∧ ∀ j < s.xcnt.toNat, elemByte s (.xs j) = elemByte u (.xs j)
  | .linterp =>
      s.opa = u.opa ∧ s.xcnt = u.xcnt ∧ s.ycnt = u.ycnt ∧
        (∀ j < s.xcnt.toNat, elemByte s (.xs j) = elemByte u (.xs j)) ∧
        ∀ j < s.ycnt.toNat, elemByte s (.ys j) = elemByte u (.ys j)
  | .linterp0 =>
      s.xcnt = u.xcnt ∧ s.ycnt = u.ycnt ∧ (∀ j < s.xcnt.toNat, elemByte s (.xs j) = elemByte u (.xs j)) ∧
        ∀ j < s.ycnt.toNat, elemByte s (.ys j) = elemByte u (.ys j)
  | .pbuild => s.opa = u.opa ∧ s.deg = u.deg ∧ ∀ j len, rngAnswerAt s j len = rngAnswerAt u j len
  | .split =>
      s.lmax = u.lmax ∧ s.slen = u.slen ∧
        (∀ p < s.slen.toNat, p < s.lmax.val → elemByte s (.sec p) = elemByte u (.sec p)) ∧
        s.t = u.t ∧ s.n = u.n ∧
        ctrlXexpl s.ctrl = ctrlXexpl u.ctrl ∧
        (ctrlXexpl s.ctrl = true → s.xcnt = u.xcnt ∧ ∀ j < s.n.toNat, elemByte s (.xs j) = elemByte u (.xs j)) ∧
        ∀ j len, rngAnswerAt s j len = rngAnswerAt u j len
  | .combine =>
      s.lmax = u.lmax ∧ s.scnt = u.scnt ∧ ∀ j < s.scnt.toNat,
        elemByte s (.shIdx j) = elemByte u (.shIdx j) ∧ shareLen s j = shareLen u j ∧
        ∀ p < (shareLen s j).toNat, p < s.lmax.val → elemByte s (.shData j p) = elemByte u (.shData j p)

/-- Slot `i` of `u` holds the share that slot `j` of `s` holds: its index, its length and its bytes. -/
def SameShare (s : State) (j : Nat) (u : State) (i : Nat) : Prop :=
  elemByte u (.shIdx i) = elemByte s (.shIdx j) ∧ shareLen u i = shareLen s j ∧
    ∀ p < (shareLen s j).toNat, p < s.lmax.val → elemByte u (.shData i p) = elemByte s (.shData j p)

end Sys2Proof.Machine
end

