-- ==== Sys2Proof/Certificates/Slice0/Obligations.lean ====
section
/-!
DEFINITION. The statements for the provers, from the numbered rules of spec/. What the statements say in the spec's own
formulas (powers, sums, products, the Lagrange formula, the polynomial a byte stands for) is written out here under
Sys2Proof.Spec, apart from the model's algorithms.
-/

namespace Sys2Proof.Spec

open Sys2Proof.Machine

/-- `a` multiplied by itself `n` times, 1 for `n` = 0 (spec/40_field.md R124). -/
def power (a : Byte) : Nat → Byte
  | 0 => 1
  | n + 1 => gfMul (power a n) a

/-- The field sum of `f 0`, ..., `f (k-1)` (spec/00_scope.md R10). -/
def sum (f : Nat → Byte) : Nat → Byte
  | 0 => 0
  | k + 1 => sum f k ^^^ f k

/-- The field product of `f j` over `j < k`, `j ≠ i` (spec/00_scope.md R10). -/
def productBut (i : Nat) (f : Nat → Byte) : Nat → Byte
  | 0 => 1
  | k + 1 => if k = i then productBut i f k else gfMul (productBut i f k) (f k)

/-- `a / b` for a nonzero `b` (spec/40_field.md R126). -/
def quotient (a b : Byte) : Byte := gfMul a (power b 254)

/-- The value at `x` of the polynomial with coefficients `c 0`, ..., `c d`: the direct sum of `c k · x^k`. -/
def evaluate (c : Nat → Byte) (d : Nat) (x : Byte) : Byte := sum (fun k => gfMul (c k) (power x k)) (d + 1)

/-- The Lagrange basis value L_i(X) over the points `x 0`, ..., `x (k-1)`: the product of the quotients (R152). -/
def basis (x : Nat → Byte) (k i : Nat) (X : Byte) : Byte :=
  productBut i (fun j => quotient (X ^^^ x j) (x i ^^^ x j)) k

/-- The interpolated value at X: the sum of `y_i · L_i(X)` (R153). -/
def interpolate (x y : Nat → Byte) (k : Nat) (X : Byte) : Byte := sum (fun i => gfMul (y i) (basis x k i X)) k

/-- The little-endian value of the bytes `f 0`, ..., `f (n-1)` (spec/20_memory.md R70). -/
def sumBytes (f : Nat → Byte) : Nat → Nat
  | 0 => 0
  | n + 1 => sumBytes f n + (f n).toNat * 256 ^ n

/-- The first `k` values are pairwise different (R151). -/
def Distinct (x : Nat → Byte) (k : Nat) : Prop := ∀ j < k, ∀ i < j, x i ≠ x j

/-- The polynomial over GF(2) a byte stands for (spec/00_scope.md R9). -/
noncomputable def bytePoly (a : Byte) : Polynomial (ZMod 2) :=
  ∑ i ∈ Finset.range 8, if a.getLsbD i then Polynomial.X ^ i else 0

/-- The reduction polynomial 0x11B (spec/00_scope.md R3). -/
noncomputable def reductionPoly : Polynomial (ZMod 2) :=
  Polynomial.X ^ 8 + Polynomial.X ^ 4 + Polynomial.X ^ 3 + Polynomial.X + 1

/-- COEF[k], XS[k], YS[k], SEC[k] and SH_IDX[k] of a state. -/
def coef (s : State) (k : Nat) : Byte := elemByte s (.coef k)
def xs (s : State) (k : Nat) : Byte := elemByte s (.xs k)
def ys (s : State) (k : Nat) : Byte := elemByte s (.ys k)
def sec (s : State) (k : Nat) : Byte := elemByte s (.sec k)
def shIdx (s : State) (k : Nat) : Byte := elemByte s (.shIdx k)

/-- Every buffer byte outside the elements that command `i` writes in state `s` reads in `t` as in `s` (R46). -/
def OtherElementsSame (i : Instr) (s t : State) : Prop :=
  ∀ a, (∀ l j, locAt s.lmax.val a = some (l, j) → ¬ writesElement i s l) → bufferByte t a = bufferByte s a

/-- SPLIT's length and count conditions (spec/42_split_combine.md R181). -/
def LengthOk (s : State) : Prop := 1 ≤ s.slen.toNat ∧ s.slen.toNat ≤ s.lmax.val
def CountsOk (s : State) : Prop := 1 ≤ s.t.toNat ∧ s.t.toNat ≤ s.n.toNat

/-- SPLIT's conditions on explicit x-values (R182). -/
def XsOk (s : State) : Prop :=
  ctrlXexpl s.ctrl = true → s.xcnt = s.n ∧ (∀ j < s.n.toNat, xs s j ≠ 0) ∧ Distinct (xs s) s.n.toNat

/-- SPLIT passes its checks (R181, R182). -/
def SplitOk (s : State) : Prop := LengthOk s ∧ CountsOk s ∧ XsOk s

/-- x-value number `j` in force for SPLIT (R182). -/
def xValue (s : State) (j : Nat) : Byte := if ctrlXexpl s.ctrl then xs s j else BitVec.ofNat 8 (j + 1)

/-- Coefficient `k` of position `p`'s polynomial: the secret byte, then the answer's bytes (R183, R184). -/
def coefficient (s : State) (answer : Nat → List Byte) (p k : Nat) : Byte :=
  if k = 0 then sec s p else (answer p).getD (k - 1) 0

/-- COMBINE passes its checks (R191). -/
def CombineOk (s : State) : Prop :=
  1 ≤ s.scnt.toNat ∧ (∀ j < s.scnt.toNat, shIdx s j ≠ 0) ∧ Distinct (shIdx s) s.scnt.toNat ∧
    (∀ j < s.scnt.toNat, shareLen s j = shareLen s 0) ∧ 1 ≤ (shareLen s 0).toNat ∧
    (shareLen s 0).toNat ≤ s.lmax.val

/-- The ERRCODE values a command may leave, success included (spec/60_exceptions.md R215, R211). -/
def possibleCodes : Instr → List Byte
  | .gfadd | .gfsub | .gfxtime | .gfmul | .gfpow | .peval => [0x00]
  | .gfinv => [0x00, 0x10]
  | .gfdiv => [0x00, 0x11]
  | .xdistinct => [0x00, 0x27]
  | .lbasis => [0x00, 0x31, 0x30]
  | .linterp | .linterp0 => [0x00, 0x2E, 0x2F, 0x27]
  | .pbuild => [0x00, 0x2D]
  | .split => [0x00, 0x23, 0x24, 0x20, 0x21, 0x22, 0x25, 0x26, 0x27, 0x2D]
  | .combine => [0x00, 0x28, 0x29, 0x2A, 0x2B, 0x2C, 0x24]

/-- The state after reset number `epoch`: every scalar register as R45's table says, every buffer element a free value that
depends on the reset (assumption log 3). -/
def AfterReset (t : State) (epoch : Nat) : Prop :=
  t.status = 0x00 ∧ t.errcode = 0x00 ∧ t.res = 0x00 ∧ t.opa = 0x00 ∧ t.opb = 0x00 ∧ t.exp = 0x00000000 ∧
    t.deg = 0x00 ∧ t.ctrl = 0x00 ∧ t.xcnt = 0x00 ∧ t.ycnt = 0x00 ∧ t.t = 0x00 ∧ t.n = 0x00 ∧ t.scnt = 0x00 ∧
    t.slen = 0x0000 ∧ ∀ a, bufferByte t a = Config.powerOnByte epoch a

/-- The location keeps what the HOST writes: neither CMD nor read-only, and not CTRL, which keeps bit 0 alone (R66). -/
def storesWhole : Loc → Bool
  | .cmd | .status | .errcode | .res | .ctrl => false
  | _ => true

end Sys2Proof.Spec

open Sys2Proof Sys2Proof.Machine Sys2Proof.Spec

/-! ### Encoding: commands, addresses, statements -/

/-- R102: the fifteen opcodes, with their mnemonics. -/
def Obligations.OpcodeTableDecodes : Prop :=
  (decode 0x01 = .instr .gfadd ∧ decode 0x02 = .instr .gfsub ∧ decode 0x03 = .instr .gfxtime ∧
    decode 0x04 = .instr .gfmul ∧ decode 0x05 = .instr .gfpow ∧ decode 0x06 = .instr .gfinv ∧
    decode 0x07 = .instr .gfdiv ∧ decode 0x10 = .instr .peval ∧ decode 0x11 = .instr .xdistinct ∧
    decode 0x12 = .instr .lbasis ∧ decode 0x13 = .instr .linterp ∧ decode 0x14 = .instr .linterp0 ∧
    decode 0x15 = .instr .pbuild ∧ decode 0x20 = .instr .split ∧ decode 0x21 = .instr .combine) ∧
  opcodeTable.map (fun r => (r.value, r.mask, r.mnemonic)) =
    [(0x01, 0xFF, "GFADD"), (0x02, 0xFF, "GFSUB"), (0x03, 0xFF, "GFXTIME"), (0x04, 0xFF, "GFMUL"),
     (0x05, 0xFF, "GFPOW"), (0x06, 0xFF, "GFINV"), (0x07, 0xFF, "GFDIV"), (0x10, 0xFF, "PEVAL"),
     (0x11, 0xFF, "XDISTINCT"), (0x12, 0xFF, "LBASIS"), (0x13, 0xFF, "LINTERP"), (0x14, 0xFF, "LINTERP0"),
     (0x15, 0xFF, "PBUILD"), (0x20, 0xFF, "SPLIT"), (0x21, 0xFF, "COMBINE")]

/-- Decoding and encoding agree both ways (R100, R101, R102). -/
def Obligations.DecodeEncodeAgree : Prop :=
  (∀ i, decode (encode i) = .instr i) ∧ ∀ b i, decode b = .instr i → b = encode i

/-- R104: which bytes are illegal, and everything that writing one to CMD does. -/
def Obligations.IllegalOpcodeRaises : Prop :=
  (∀ b : Byte, decode b = .illegal b ↔
    (b.toNat = 0x00 ∨ (0x08 ≤ b.toNat ∧ b.toNat ≤ 0x0F) ∨ (0x16 ≤ b.toNat ∧ b.toNat ≤ 0x1F) ∨ 0x22 ≤ b.toNat)) ∧
  ∀ (s : State) (b : Byte) (moves : List HostMove), s.host = .write 0x00000000 b :: moves → decode b = .illegal b →
    step s = .next { s with
      host := moves, resp := some (.writeDone false), status := 0x82, errcode := 0x01 }

/-- R71 and R63: the address of each buffer element, and that decoding an address finds exactly the location and byte
that live there, for every LMAX. -/
def Obligations.AddressMapRoundTrip : Prop :=
  (∀ k i s p, Loc.addr (.coef k) = 0x0100 + k ∧ Loc.addr (.xs i) = 0x0200 + i ∧ Loc.addr (.ys i) = 0x0300 + i ∧
    Loc.addr (.shIdx s) = 0x0400 + s ∧ Loc.addr (.shLen s) = 0x0600 + 2 * s ∧ Loc.addr (.sec p) = 0x00010000 + p ∧
    Loc.addr (.shData s p) = 0x01000000 + s * 0x00010000 + p) ∧
  ∀ lmax : Lmax,
    (∀ l : Loc, l.wf lmax.val = true → ∀ j < l.width, locAt lmax.val (l.addr + j) = some (l, j)) ∧
    ∀ a l j, locAt lmax.val a = some (l, j) → l.wf lmax.val = true ∧ j < l.width ∧ a = l.addr + j

/-- R63: the unmapped addresses, for every LMAX (R6). -/
def Obligations.UnmappedAddressesAreListed : Prop :=
  ∀ (lmax : Lmax), ∀ a < 2 ^ 32, locAt lmax.val a = none ↔
    (a = 0x11 ∨ (0x14 ≤ a ∧ a ≤ 0xFF) ∨ a = 0x02FF ∨ a = 0x03FF ∨ (0x04FF ≤ a ∧ a ≤ 0x05FF) ∨
      (0x07FE ≤ a ∧ a ≤ 0xFFFF) ∨ (0x00010000 + lmax.val ≤ a ∧ a ≤ 0x00FFFFFF) ∨
      (0x01000000 ≤ a ∧ a < 0x01FF0000 ∧ lmax.val ≤ a % 0x10000) ∨ 0x01FF0000 ≤ a)

/-- R106, R67: the transactions of a well-formed host script statement decode back to the statement: each goes to the next
byte of its location, lowest first, and the bytes make up the value; a mnemonic is the write of an opcode that decodes to
its command. -/
def Obligations.StatementTransactionsRoundTrip : Prop :=
  (∀ (lmax : Lmax) (l : Loc) (v : Nat), (Stmt.wr l v).wf lmax.val = true →
    ∃ bytes : List Byte, bytes.length = l.width ∧ v = (bytes.mapIdx fun j b => b.toNat * 256 ^ j).sum ∧
      (Stmt.wr l v).encode = bytes.mapIdx (fun j b => .write (BitVec.ofNat 32 (l.addr + j)) b) ∧
      ∀ j < l.width, locAt lmax.val (BitVec.ofNat 32 (l.addr + j)).toNat = some (l, j)) ∧
  (∀ (lmax : Lmax) (l : Loc), (Stmt.rd l).wf lmax.val = true →
    (Stmt.rd l).encode = (List.range l.width).map (fun j => .read (BitVec.ofNat 32 (l.addr + j))) ∧
      ∀ j < l.width, locAt lmax.val (BitVec.ofNat 32 (l.addr + j)).toNat = some (l, j)) ∧
  ∀ i : Instr, ∃ op, (Stmt.command i).encode = [.write 0x00000000 op] ∧ decode op = .instr i

/-! ### The step and the host port -/

/-- A host write to CMD of a byte that decodes to a command runs that command; the transaction's response is ok whatever
the command does (R64, R101). -/
def Obligations.StepRunsDecodedCommand : Prop :=
  ∀ (s : State) (b : Byte) (i : Instr) (moves : List HostMove), s.host = .write 0x00000000 b :: moves →
    decode b = .instr i → step s = exec i { s with host := moves, resp := some (.writeDone false) }

/-- With no move of the outside world the block holds its state (R245; that the listed moves are all there are is the
model's choice, assumption log 1). -/
def Obligations.IdleBlockHoldsState : Prop := ∀ s : State, s.host = [] → step s = .next s

/-- R72: a host read has no side effect; it answers the byte of a mapped address, and of an unmapped one the error response
with data 0x00 (R65). -/
def Obligations.HostReadHasNoSideEffect : Prop :=
  ∀ (s : State) (a : Addr) (moves : List HostMove), s.host = .read a :: moves →
    (∀ b, hostByte s a.toNat = some b →
      step s = .next { s with host := moves, resp := some (.readDone b false) }) ∧
    (locAt s.lmax.val a.toNat = none → step s = .next { s with host := moves, resp := some (.readDone 0x00 true) })

/-- R66, R67, R60: what a host read of each register and of each buffer element returns: the content the ENGINE works on. -/
def Obligations.RegisterReads : Prop :=
  ∀ s : State, hostByte s 0x00 = some 0x00 ∧
    (∃ b, hostByte s 0x01 = some b ∧ b.getLsbD 7 = s.status.getLsbD 7 ∧ b.extractLsb' 2 5 = 0 ∧
      b.extractLsb' 0 2 = s.status.extractLsb' 0 2) ∧
    hostByte s 0x02 = some s.errcode ∧ hostByte s 0x03 = some s.res ∧ hostByte s 0x04 = some s.opa ∧
    hostByte s 0x05 = some s.opb ∧ hostByte s 0x06 = some s.deg ∧ hostByte s 0x07 = some (s.ctrl &&& 0x01) ∧
    hostByte s 0x0C = some s.xcnt ∧ hostByte s 0x0D = some s.ycnt ∧ hostByte s 0x0E = some s.t ∧
    hostByte s 0x0F = some s.n ∧ hostByte s 0x10 = some s.scnt ∧
    memRead s 0x08 4 = some s.exp.toNat ∧ memRead s 0x12 2 = some s.slen.toNat ∧
    (∀ j < 255, memRead s (0x0600 + 2 * j) 2 = some (shareLen s j).toNat) ∧
    ∀ l : Loc, l.wf s.lmax.val = true → l.isBuffer = true → l.width = 1 → hostByte s l.addr = some (elemByte s l)

/-- R66: a host write elsewhere than to CMD completes ok; a location that keeps what is written reads back all eight bits,
CTRL bit 0 alone, a read-only one what it read before; no other address reads differently, and nothing is launched. -/
def Obligations.HostWriteThenRead : Prop :=
  ∀ (s : State) (a : Addr) (v : Byte) (moves : List HostMove) (l : Loc) (j : Nat),
    s.host = .write a v :: moves → locAt s.lmax.val a.toNat = some (l, j) → l ≠ .cmd →
    ∃ t, step s = .next t ∧ t.resp = some (.writeDone false) ∧ t.host = moves ∧
      (storesWhole l = true → hostByte t a.toNat = some v) ∧
      (l = .ctrl → hostByte t a.toNat = some (v &&& 0x01)) ∧
      (l = .status ∨ l = .errcode ∨ l = .res → hostByte t a.toNat = hostByte s a.toNat) ∧
      (∀ a' : Nat, a' ≠ a.toNat → hostByte t a' = hostByte s a') ∧
      t.status = s.status ∧ t.errcode = s.errcode ∧ t.res = s.res ∧ t.rng = s.rng ∧ t.rngLog = s.rngLog ∧
      t.epoch = s.epoch ∧ t.lmax = s.lmax

/-- R65, R223: a write to an unmapped address is answered with an error response and changes no state. That the model gives
the hardware's answer and does not refuse the move is its choice (assumption log 4). -/
def Obligations.UnmappedWriteChangesNothing : Prop :=
  ∀ (s : State) (a : Addr) (v : Byte) (moves : List HostMove), s.host = .write a v :: moves →
    locAt s.lmax.val a.toNat = none →
    step s = .next { s with host := moves, resp := some (.writeDone true) }

/-- R75, R60: what the HOST writes at the address of a one-byte buffer element is what the ENGINE reads there, and every
other element stays as the ENGINE read it. -/
def Obligations.EngineReadsWhatHostWrote : Prop :=
  ∀ (s : State) (l : Loc) (v : Byte) (moves : List HostMove), l.wf s.lmax.val = true → l.isBuffer = true → l.width = 1 →
    s.host = .write (BitVec.ofNat 32 l.addr) v :: moves →
    ∃ t, step s = .next t ∧ elemByte t l = v ∧
      (∀ l', l'.wf s.lmax.val = true → l'.isBuffer = true → l'.width = 1 → l' ≠ l → elemByte t l' = elemByte s l') ∧
      ∀ j < 255, shareLen t j = shareLen s j

/-- R70: MemRead is the little-endian sum of the bytes where 1, 2 or 4 addresses all belong to one location, and is defined
nowhere else; MemWrite is defined at the same places. That MemWrite is defined at the locations that do not keep a written
value too is the model's choice (assumption log 15). -/
def Obligations.MemReadIsLittleEndianSum : Prop :=
  ∀ (s : State) (a n : Nat),
    ((n = 1 ∨ n = 2 ∨ n = 4) → (∃ l, ∀ k < n, ∃ j, locAt s.lmax.val (a + k) = some (l, j)) →
      memRead s a n = some (sumBytes (fun k => (hostByte s (a + k)).getD 0) n) ∧ ∀ v, (memWrite s a n v).isSome = true) ∧
    (¬ ((n = 1 ∨ n = 2 ∨ n = 4) ∧ ∃ l, ∀ k < n, ∃ j, locAt s.lmax.val (a + k) = some (l, j)) →
      memRead s a n = none ∧ ∀ v, memWrite s a n v = none)

/-- R70, R67: MemWrite at one of the places where it is defined, in a location that keeps what is written, sets byte k to bits
8k+7:8k of the value and no other address; so MemRead there gives the value written, if it fits. -/
def Obligations.MemWriteThenMemRead : Prop :=
  ∀ (s : State) (l : Loc) (i n v : Nat), l.wf s.lmax.val = true → storesWhole l = true → (n = 1 ∨ n = 2 ∨ n = 4) →
    i + n ≤ l.width →
    ∃ t, memWrite s (l.addr + i) n v = some t ∧
      (∀ k < n, hostByte t (l.addr + i + k) = some (BitVec.ofNat 8 (v >>> (8 * k) &&& 0xFF))) ∧
      (∀ a, (a < l.addr + i ∨ l.addr + i + n ≤ a) → hostByte t a = hostByte s a) ∧
      (v < 256 ^ n → memRead t (l.addr + i) n = some v)

/-- R45: the state at the start and after a reset pulse, and that a SPLIT or COMBINE launched straight after it fails with a
validation error and writes nothing. That a buffer byte reads as the free value of its address and of the number of resets, 0
at the start, is the model's choice of form (assumption log 3, log 8); R45 says that the content is unspecified. -/
def Obligations.ResetLeavesReset : Prop :=
  AfterReset State.reset 0 ∧
  (∀ (s : State) (moves : List HostMove), s.host = .reset :: moves →
    ∃ t, step s = .next t ∧ AfterReset t (s.epoch + 1) ∧ t.host = moves ∧ t.lmax = s.lmax) ∧
  ∀ (t : State) (epoch : Nat), AfterReset t epoch →
    exec .split t = .next { t with status := 0x82, errcode := 0x23 } ∧
    exec .combine t = .next { t with status := 0x82, errcode := 0x28 }

/-! ### Invariants of the whole machine -/

/-- The invariant holds after reset. -/
def Obligations.ResetMeetsInvariant : Prop := State.reset.Inv

/-- Every step keeps the invariant: LMAX at least 1 (R6), STATUS and ERRCODE consistent with reserved bits 0 (R27, R28, R211),
CTRL's reserved bits 0 (R29), the memory in canonical form and inside the address map (R63, R73), requests of 1 to 255 bytes (R81). -/
def Obligations.StepKeepsInvariant : Prop := ∀ s t : State, s.Inv → step s = .next t → t.Inv

/-- R6: LMAX is a parameter of the instance, which no step changes, a reset included. -/
def Obligations.StepKeepsParameter : Prop := ∀ s t : State, step s = .next t → t.lmax = s.lmax

/-- Unless one of the requests the next command can make goes unanswered (R85's assumption on the source; a command makes at
most one, or SLEN, R87), the step goes on: no state and no move of the outside world stops the machine. -/
def Obligations.StepGoesOnUnlessSourceSilent : Prop :=
  ∀ s : State, (∀ j < max 1 s.slen.toNat, ∀ len, rngAnswerAt s j len ≠ .never) → StepsOn s

/-- R213, R214: a command that raises an error changes STATUS and ERRCODE alone (the random bytes it drew stay drawn, R87);
DONE is 1 and KIND is the kind of the code. -/
def Obligations.ErrorChangesStatusAlone : Prop :=
  ∀ (i : Instr) (s t : State), exec i s = .next t → t.errcode ≠ 0x00 →
    t = { s with status := t.status, errcode := t.errcode, rng := t.rng, rngLog := t.rngLog } ∧
    statusIsDone t.status = true ∧ statusKind t.status ≠ 0 ∧ kindOfErrcode t.errcode = some (statusKind t.status) ∧
    t.status.extractLsb' 2 5 = 0

/-- R28: after a command STATUS.KIND is 0 if and only if ERRCODE is 0x00; STATUS is then 0x80, whatever it was before. -/
def Obligations.SuccessAndErrorStatus : Prop :=
  ∀ (i : Instr) (s t : State), exec i s = .next t →
    (statusKind t.status = 0 ↔ t.errcode = 0x00) ∧ (t.errcode = 0x00 → t.status = 0x80) ∧ statusIsDone t.status = true

/-- R215: which errors each command can raise, no others and every one of them somewhere; the invariant violation comes from
LBASIS alone and the domain errors from GFINV and GFDIV alone. -/
def Obligations.ErrorsOfEachCommand : Prop :=
  (∀ (i : Instr) (s t : State), exec i s = .next t → t.errcode ∈ possibleCodes i) ∧
  (∀ (i : Instr), ∀ c ∈ possibleCodes i, ∃ s t, exec i s = .next t ∧ t.errcode = c) ∧
  ∀ (s : State) (b : Byte) (moves : List HostMove) (t : State), s.host = .write 0x00000000 b :: moves →
    decode b = .illegal b → step s = .next t → t.errcode = 0x01

/-- The ENGINE never writes an operand register (R21, R22, R29 to R33), nor XS, YS (R36, R37). -/
def Obligations.OperandsNeverWrittenByEngine : Prop :=
  ∀ (i : Instr) (s t : State), exec i s = .next t → SameOperands s t ∧
    (∀ j < 255, xs t j = xs s j ∧ ys t j = ys s j) ∧ t.epoch = s.epoch ∧ t.lmax = s.lmax ∧
    t.host = s.host ∧ t.resp = s.resp

/-- R46, the column of writes, as the frame of every command: RES only by the eleven scalar-result commands, SLEN only by
COMBINE, a buffer byte only where the command's row says, the randomness port only by PBUILD and SPLIT. -/
def Obligations.WritesOfEachCommand : Prop :=
  ∀ (i : Instr) (s t : State), exec i s = .next t →
    (writesRes i = false → t.res = s.res) ∧ (i ≠ .combine → t.slen = s.slen) ∧ OtherElementsSame i s t ∧
    (i ≠ .pbuild → i ≠ .split → t.rng = s.rng ∧ t.rngLog = s.rngLog)

/-- R8 with R46's column of reads: two states that agree on the locations a command reads and on the source's answers end
the command alike and with the same results. -/
def Obligations.ResultDependsOnReadsAlone : Prop :=
  ∀ (i : Instr) (s u : State), AgreeOnReads i s u →
    match exec i s, exec i u with
    | .next t, .next v =>
        t.status = v.status ∧ t.errcode = v.errcode ∧
          (t.errcode = 0x00 → (writesRes i = true → t.res = v.res) ∧ (i = .combine → t.slen = v.slen) ∧
            ∀ l : Loc, l.wf s.lmax.val = true → writesElement i s l → ∀ j < l.width,
              bufferByte t (l.addr + j) = bufferByte v (l.addr + j))
    | .fault f, .fault g => f = g
    | _, _ => False

/-! ### The field functions -/

/-- R128: the field axioms D0 lists. -/
def Obligations.FieldAxioms : Prop :=
  ∀ a b c : Byte, gfAdd a b = gfAdd b a ∧ gfAdd a 0 = a ∧ gfAdd a a = 0 ∧ gfMul a 1 = a ∧ gfMul a 0 = 0 ∧
    gfMul a b = gfMul b a ∧ gfMul a (gfAdd b c) = gfAdd (gfMul a b) (gfMul a c) ∧ gfXtime a = gfMul a 2 ∧
    (a ≠ 0 → ∃ v, gfInv a = some v ∧ gfMul a v = 1) ∧ gfInv 0 = none

/-- R124's ground: multiplication is associative. -/
def Obligations.GfmulAssociative : Prop := ∀ a b c : Byte, gfMul (gfMul a b) c = gfMul a (gfMul b c)

/-- R123 with R9 and R3: the product is the product of the two bytes' polynomials over GF(2) reduced modulo 0x11B, and
doubling is multiplication by the polynomial x. -/
def Obligations.GfmulIsPolynomialProduct : Prop :=
  (∀ a b : Byte, ∃ q : Polynomial (ZMod 2),
    bytePoly a * bytePoly b = q * reductionPoly + bytePoly (gfMul a b)) ∧
  ∀ a : Byte, ∃ q : Polynomial (ZMod 2),
    Polynomial.X * bytePoly a = q * reductionPoly + bytePoly (gfXtime a)

/-- R124: `gf_pow(a, e)` is `a` multiplied by itself `e` times, with the consequences the rule lists. -/
def Obligations.GfpowIsIteratedProduct : Prop :=
  (∀ (a : Byte) (e : BitVec Config.expW), gfPow a e = power a e.toNat) ∧ gfPow 0 0 = 1 ∧
  (∀ e : BitVec Config.expW, e ≠ 0 → gfPow 0 e = 0) ∧ (∀ a, gfPow a 0 = 1 ∧ gfPow a 1 = a) ∧
  ∀ a : Byte, a ≠ 0 → gfPow a 255 = 1 ∧ ∀ e : BitVec Config.expW, gfPow a e = gfPow a (e % 255)

/-- R125, R126: the inverse and the quotient, and that they have no value for 0. -/
def Obligations.InverseAndQuotient : Prop :=
  (∀ a : Byte, a ≠ 0 → gfInv a = some (gfPow a 254) ∧ gfMul a (gfPow a 254) = 1) ∧ gfInv 0 = none ∧
  (∀ a b : Byte, b ≠ 0 → gfDiv a b = some (gfMul a (gfPow b 254)) ∧ gfMul (gfMul a (gfPow b 254)) b = a) ∧
  ∀ a : Byte, gfDiv a 0 = none

/-! ### The Field commands -/

/-- R130, R131: GFADD and GFSUB. -/
def Obligations.GfaddGfsubResult : Prop :=
  encode .gfadd = 0b00000001 ∧ encode .gfsub = 0b00000010 ∧
  ∀ s : State,
    exec .gfadd s = .next { s with res := s.opa ^^^ s.opb, status := 0x80, errcode := 0x00 } ∧
    exec .gfsub s = .next { s with res := s.opa ^^^ s.opb, status := 0x80, errcode := 0x00 }

/-- R132: GFXTIME. -/
def Obligations.GfxtimeResult : Prop :=
  encode .gfxtime = 0b00000011 ∧
  ∀ s : State,
    (s.opa.getLsbD 7 = true →
      exec .gfxtime s = .next { s with res := (s.opa <<< 1) ^^^ 0x1B, status := 0x80, errcode := 0x00 }) ∧
    (s.opa.getLsbD 7 = false →
      exec .gfxtime s = .next { s with res := s.opa <<< 1, status := 0x80, errcode := 0x00 })

/-- R133: GFMUL, with the rule's corner cases. -/
def Obligations.GfmulResult : Prop :=
  encode .gfmul = 0b00000100 ∧
  ∀ s : State,
    exec .gfmul s = .next { s with res := gfMul s.opa s.opb, status := 0x80, errcode := 0x00 } ∧
    (s.opa = 0 ∨ s.opb = 0 → gfMul s.opa s.opb = 0) ∧ (s.opb = 0x01 → gfMul s.opa s.opb = s.opa) ∧
    (s.opb = 0x02 → gfMul s.opa s.opb = gfXtime s.opa)

/-- R134: GFPOW, for every base and exponent. -/
def Obligations.GfpowResult : Prop :=
  encode .gfpow = 0b00000101 ∧
  ∀ s : State, exec .gfpow s = .next { s with res := power s.opa s.exp.toNat, status := 0x80, errcode := 0x00 }

/-- R135: GFINV; RES is the byte whose product with OPA is 1, inverting it again gives OPA, and a zero OPA is a domain error
that leaves RES. -/
def Obligations.GfinvResult : Prop :=
  encode .gfinv = 0b00000110 ∧
  ∀ s : State,
    (s.opa ≠ 0 → exec .gfinv s = .next { s with res := power s.opa 254, status := 0x80, errcode := 0x00 } ∧
      gfMul s.opa (power s.opa 254) = 1 ∧ power (power s.opa 254) 254 = s.opa) ∧
    (s.opa = 0 → exec .gfinv s = .next { s with status := 0x81, errcode := 0x10 })

/-- R136: GFDIV; RES is the byte whose product with OPB is OPA, and a zero OPB is a domain error for every OPA. -/
def Obligations.GfdivResult : Prop :=
  encode .gfdiv = 0b00000111 ∧
  ∀ s : State,
    (s.opb ≠ 0 → exec .gfdiv s = .next { s with res := quotient s.opa s.opb, status := 0x80, errcode := 0x00 } ∧
      gfMul (quotient s.opa s.opb) s.opb = s.opa ∧ (s.opa = s.opb → quotient s.opa s.opb = 1) ∧
      (s.opb = 1 → quotient s.opa s.opb = s.opa)) ∧
    (s.opb = 0 → exec .gfdiv s = .next { s with status := 0x81, errcode := 0x11 })

/-! ### The Polynomial commands -/

/-- R160, R150: PEVAL gives the direct sum of `COEF[k] · OPA^k` over `k` = 0 to DEG, in every state. -/
def Obligations.PevalResult : Prop :=
  encode .peval = 0b00010000 ∧
  ∀ s : State, exec .peval s =
    .next { s with res := evaluate (coef s) s.deg.toNat s.opa, status := 0x80, errcode := 0x00 }

/-- R161: XDISTINCT succeeds exactly where XS[0..XCNT-1] are pairwise different, and writes nothing else. -/
def Obligations.XdistinctResult : Prop :=
  encode .xdistinct = 0b00010001 ∧
  ∀ s : State,
    (Distinct (xs s) s.xcnt.toNat → exec .xdistinct s = .next { s with status := 0x80, errcode := 0x00 }) ∧
    (¬ Distinct (xs s) s.xcnt.toNat → exec .xdistinct s = .next { s with status := 0x82, errcode := 0x27 })

/-- R162, R152: LBASIS gives the product of the quotients; an index out of range is a validation error, checked first, and a
zero denominator term an invariant violation. -/
def Obligations.LbasisResult : Prop :=
  encode .lbasis = 0b00010010 ∧
  ∀ s : State,
    (s.xcnt.toNat ≤ s.opb.toNat → exec .lbasis s = .next { s with status := 0x82, errcode := 0x31 }) ∧
    (s.opb.toNat < s.xcnt.toNat → (∃ j < s.xcnt.toNat, j ≠ s.opb.toNat ∧ xs s s.opb.toNat = xs s j) →
      exec .lbasis s = .next { s with status := 0x83, errcode := 0x30 }) ∧
    (s.opb.toNat < s.xcnt.toNat → (∀ j < s.xcnt.toNat, j ≠ s.opb.toNat → xs s s.opb.toNat ≠ xs s j) →
      exec .lbasis s = .next { s with
        res := basis (xs s) s.xcnt.toNat s.opb.toNat s.opa, status := 0x80, errcode := 0x00 })

/-- R163, R153: LINTERP and its three validation errors in their order. -/
def Obligations.LinterpResult : Prop :=
  encode .linterp = 0b00010011 ∧
  ∀ s : State,
    (s.xcnt ≠ s.ycnt → exec .linterp s = .next { s with status := 0x82, errcode := 0x2E }) ∧
    (s.xcnt = s.ycnt → s.xcnt = 0 → exec .linterp s = .next { s with status := 0x82, errcode := 0x2F }) ∧
    (s.xcnt = s.ycnt → ¬ Distinct (xs s) s.xcnt.toNat →
      exec .linterp s = .next { s with status := 0x82, errcode := 0x27 }) ∧
    (s.xcnt = s.ycnt → s.xcnt ≠ 0 → Distinct (xs s) s.xcnt.toNat →
      exec .linterp s = .next { s with
        res := interpolate (xs s) (ys s) s.xcnt.toNat s.opa, status := 0x80, errcode := 0x00 })

/-- R164: LINTERP0 and its three validation errors in their order. -/
def Obligations.Linterp0Result : Prop :=
  encode .linterp0 = 0b00010100 ∧
  ∀ s : State,
    (s.xcnt ≠ s.ycnt → exec .linterp0 s = .next { s with status := 0x82, errcode := 0x2E }) ∧
    (s.xcnt = s.ycnt → s.xcnt = 0 → exec .linterp0 s = .next { s with status := 0x82, errcode := 0x2F }) ∧
    (s.xcnt = s.ycnt → ¬ Distinct (xs s) s.xcnt.toNat →
      exec .linterp0 s = .next { s with status := 0x82, errcode := 0x27 }) ∧
    (s.xcnt = s.ycnt → s.xcnt ≠ 0 → Distinct (xs s) s.xcnt.toNat →
      exec .linterp0 s = .next { s with
        res := interpolate (xs s) (ys s) s.xcnt.toNat 0, status := 0x80, errcode := 0x00 })

/-- R154: interpolation at zero is interpolation at X = 0 for all inputs, repeated x-values included, so LINTERP0 does what
LINTERP does with OPA = 0x00. -/
def Obligations.InterpolationAtZeroAgrees : Prop :=
  (∀ zs ws : List Byte, lagAtZero zs ws = lagAt zs ws 0) ∧ ∀ s : State, s.opa = 0x00 → exec .linterp0 s = exec .linterp s

/-- R155: L_i(x_i) = 1, L_i(x_j) = 0, the basis values sum to 1, and interpolating a polynomial's values gives the
polynomial's value at every X, its constant term at zero. -/
def Obligations.LagrangeProperties : Prop :=
  ∀ zs : List Byte, zs.Nodup →
    (∀ i j, (hi : i < zs.length) → (hj : j < zs.length) → lagBasis zs i zs[j] = some (if i = j then 1 else 0)) ∧
    (zs ≠ [] → ∀ X, sum (fun i => (lagBasis zs i X).getD 0) zs.length = 1) ∧
    ∀ c : List Byte, c ≠ [] → c.length ≤ zs.length →
      (∀ X, lagAt zs (zs.map (horner c)) X = some (horner c X)) ∧
      lagAtZero zs (zs.map (horner c)) = some (c.headD 0)

/-- R165: PBUILD with degree 0, with a full answer and with a short answer. -/
def Obligations.PbuildResult : Prop :=
  encode .pbuild = 0b00010101 ∧
  ∀ s : State,
    (s.deg = 0 → ∃ t, exec .pbuild s = .next t ∧
      t = { s with status := 0x80, errcode := 0x00, mem := t.mem } ∧ coef t 0 = s.opa ∧
      OtherElementsSame .pbuild s t) ∧
    (∀ r, s.deg ≠ 0 → rngAnswerAt s 0 s.deg.toNat = .bytes r → s.deg.toNat ≤ r.length → ∃ t, exec .pbuild s = .next t ∧
      t = { s with
        status := 0x80, errcode := 0x00, mem := t.mem, rng := s.rng.tail,
        rngLog := ⟨s.deg.toNat, s.deg.toNat⟩ :: s.rngLog } ∧
      coef t 0 = s.opa ∧ (∀ k, 1 ≤ k → k ≤ s.deg.toNat → coef t k = r.getD (k - 1) 0) ∧
      OtherElementsSame .pbuild s t) ∧
    (∀ r, s.deg ≠ 0 → rngAnswerAt s 0 s.deg.toNat = .bytes r → r.length < s.deg.toNat →
      exec .pbuild s = .next { s with
        status := 0x82, errcode := 0x2D, rng := s.rng.tail, rngLog := ⟨s.deg.toNat, r.length⟩ :: s.rngLog })

/-- R81, R83: a request takes the first `len` bytes of the answer and uses the answer up. -/
def Obligations.RngDrawTakesFirstBytes : Prop :=
  ∀ (s : State) (len : Nat) (r : List Byte), rngAnswerAt s 0 len = .bytes r →
    ∃ t, rngDraw s len = some (r.take len, t) ∧
      t = { s with rng := s.rng.tail, rngLog := ⟨len, min len r.length⟩ :: s.rngLog } ∧
      ∀ j n, rngAnswerAt t j n = rngAnswerAt s (j + 1) n

/-- R86: the rules hold for any bytes of the source, good or bad: whatever byte lists answer, if they are long enough PBUILD and
SPLIT succeed with exactly those bytes as coefficients. The answers stand in the state (assumption log 2). -/
def Obligations.AnyRandomBytesAreUsed : Prop :=
  (∀ (s : State) (r : List Byte) (later : List RngAnswer), s.deg ≠ 0 → s.deg.toNat ≤ r.length →
    ∃ t, exec .pbuild { s with rng := .bytes r :: later } = .next t ∧ t.status = 0x80 ∧ t.errcode = 0x00 ∧
      t.rng = later ∧ coef t 0 = s.opa ∧ ∀ k, 1 ≤ k → k ≤ s.deg.toNat → coef t k = r.getD (k - 1) 0) ∧
  ∀ (s : State) (rs : List (List Byte)) (later : List RngAnswer), SplitOk s → 2 ≤ s.t.toNat →
    rs.length = s.slen.toNat → (∀ r ∈ rs, s.t.toNat - 1 ≤ r.length) →
    ∃ t, exec .split { s with rng := rs.map .bytes ++ later } = .next t ∧ t.status = 0x80 ∧ t.errcode = 0x00 ∧
      t.rng = later ∧ ∀ j < s.n.toNat, ∀ p < s.slen.toNat, elemByte t (.shData j p) =
        evaluate (coefficient s (fun q => rs.getD q []) p) (s.t.toNat - 1) (xValue s j)

/-- R85: no step gets past an unanswered request of PBUILD or SPLIT. That the hang is the fault rngUnanswered is the model's
choice (assumption log 2). -/
def Obligations.UnansweredRequestStops : Prop :=
  (∀ s : State, s.deg ≠ 0 → rngAnswerAt s 0 s.deg.toNat = .never → exec .pbuild s = .fault .rngUnanswered) ∧
  ∀ (s : State) (answer : Nat → List Byte) (p : Nat), SplitOk s → 2 ≤ s.t.toNat → p < s.slen.toNat →
    RngSupplies s p (s.t.toNat - 1) answer → rngAnswerAt s p (s.t.toNat - 1) = .never →
    exec .split s = .fault .rngUnanswered

/-! ### The Sequencer commands -/

/-- R181, R182: SPLIT's checks in their order, each raising its error with nothing drawn and nothing else changed; and the
x-values in force. -/
def Obligations.SplitChecksInOrder : Prop :=
  ∀ s : State,
    (s.slen = 0 → exec .split s = .next { s with status := 0x82, errcode := 0x23 }) ∧
    (s.lmax.val < s.slen.toNat → exec .split s = .next { s with status := 0x82, errcode := 0x24 }) ∧
    (LengthOk s → s.t = 0 → exec .split s = .next { s with status := 0x82, errcode := 0x20 }) ∧
    (LengthOk s → s.t ≠ 0 → s.n = 0 → exec .split s = .next { s with status := 0x82, errcode := 0x21 }) ∧
    (LengthOk s → s.n ≠ 0 → s.n.toNat < s.t.toNat → exec .split s = .next { s with status := 0x82, errcode := 0x22 }) ∧
    (LengthOk s → CountsOk s → ctrlXexpl s.ctrl = true → s.xcnt ≠ s.n →
      exec .split s = .next { s with status := 0x82, errcode := 0x25 }) ∧
    (LengthOk s → CountsOk s → ctrlXexpl s.ctrl = true → s.xcnt = s.n → (∃ j < s.n.toNat, xs s j = 0) →
      exec .split s = .next { s with status := 0x82, errcode := 0x26 }) ∧
    (LengthOk s → CountsOk s → ctrlXexpl s.ctrl = true → s.xcnt = s.n → (∀ j < s.n.toNat, xs s j ≠ 0) →
      ¬ Distinct (xs s) s.n.toNat → exec .split s = .next { s with status := 0x82, errcode := 0x27 }) ∧
    (splitXs s).length = s.n.toNat ∧
    ∀ j < s.n.toNat, (splitXs s)[j]? = some (if ctrlXexpl s.ctrl then xs s j else BitVec.ofNat 8 (j + 1))

/-- R183, R184, R185: a SPLIT that passes its checks, the source answering in full, writes the shares, draws `T-1` bytes per
position in ascending order (none when T = 1) and changes nothing else. -/
def Obligations.SplitResult : Prop :=
  encode .split = 0b00100000 ∧
  ∀ (s : State) (answer : Nat → List Byte), SplitOk s →
    (2 ≤ s.t.toNat → RngSupplies s s.slen.toNat (s.t.toNat - 1) answer) →
    ∃ t, exec .split s = .next t ∧
      (t = if 2 ≤ s.t.toNat then
          { afterRequests s s.slen.toNat (s.t.toNat - 1) with status := 0x80, errcode := 0x00, mem := t.mem }
        else { s with status := 0x80, errcode := 0x00, mem := t.mem }) ∧
      (∀ j < s.n.toNat, shIdx t j = xValue s j ∧ shareLen t j = s.slen ∧
        ∀ p < s.slen.toNat, elemByte t (.shData j p) =
          evaluate (coefficient s answer p) (s.t.toNat - 1) (xValue s j)) ∧
      OtherElementsSame .split s t

/-- R184, R82, R87: a SPLIT whose request at position `p` is the first not answered in full raises VAL_RNG_SHORT, the bytes
drawn so far staying drawn and no slot written. -/
def Obligations.SplitShortAnswer : Prop :=
  ∀ (s : State) (answer : Nat → List Byte) (p : Nat) (r : List Byte), SplitOk s → 2 ≤ s.t.toNat → p < s.slen.toNat →
    RngSupplies s p (s.t.toNat - 1) answer → rngAnswerAt s p (s.t.toNat - 1) = .bytes r → r.length < s.t.toNat - 1 →
    exec .split s = .next { s with
      status := 0x82, errcode := 0x2D, rng := s.rng.drop (p + 1),
      rngLog := ⟨s.t.toNat - 1, r.length⟩ :: (List.replicate p ⟨s.t.toNat - 1, s.t.toNat - 1⟩ ++ s.rngLog) }

/-- R186 (a): a SPLIT with T = 1 that passes its checks succeeds, every share's bytes are the secret's bytes, and no request is
made. -/
def Obligations.SplitThresholdOneCopiesSecret : Prop :=
  ∀ s : State, SplitOk s → s.t = 1 → ∃ t, exec .split s = .next t ∧ t.status = 0x80 ∧ t.errcode = 0x00 ∧
    t.rng = s.rng ∧ t.rngLog = s.rngLog ∧
    ∀ j < s.n.toNat, ∀ p < s.slen.toNat, elemByte t (.shData j p) = sec s p

/-- R191: COMBINE's checks in their order, each raising its error with nothing else changed. -/
def Obligations.CombineChecksInOrder : Prop :=
  ∀ s : State,
    (s.scnt = 0 → exec .combine s = .next { s with status := 0x82, errcode := 0x28 }) ∧
    ((∃ j < s.scnt.toNat, shIdx s j = 0) → exec .combine s = .next { s with status := 0x82, errcode := 0x29 }) ∧
    ((∀ j < s.scnt.toNat, shIdx s j ≠ 0) → ¬ Distinct (shIdx s) s.scnt.toNat →
      exec .combine s = .next { s with status := 0x82, errcode := 0x2A }) ∧
    ((∀ j < s.scnt.toNat, shIdx s j ≠ 0) → Distinct (shIdx s) s.scnt.toNat →
      (∃ j < s.scnt.toNat, shareLen s j ≠ shareLen s 0) →
      exec .combine s = .next { s with status := 0x82, errcode := 0x2B }) ∧
    (1 ≤ s.scnt.toNat → (∀ j < s.scnt.toNat, shIdx s j ≠ 0) → Distinct (shIdx s) s.scnt.toNat →
      (∀ j < s.scnt.toNat, shareLen s j = shareLen s 0) → shareLen s 0 = 0 →
      exec .combine s = .next { s with status := 0x82, errcode := 0x2C }) ∧
    (1 ≤ s.scnt.toNat → (∀ j < s.scnt.toNat, shIdx s j ≠ 0) → Distinct (shIdx s) s.scnt.toNat →
      (∀ j < s.scnt.toNat, shareLen s j = shareLen s 0) → s.lmax.val < (shareLen s 0).toNat →
      exec .combine s = .next { s with status := 0x82, errcode := 0x24 })

/-- R190, R192: a COMBINE that passes its checks writes SLEN and the interpolation at zero of every byte position, and
changes nothing else. -/
def Obligations.CombineResult : Prop :=
  encode .combine = 0b00100001 ∧
  ∀ s : State, CombineOk s → ∃ t, exec .combine s = .next t ∧
    t = { s with status := 0x80, errcode := 0x00, slen := shareLen s 0, mem := t.mem } ∧
    (∀ p < (shareLen s 0).toNat, sec t p =
      interpolate (shIdx s) (fun j => elemByte s (.shData j p)) s.scnt.toNat 0) ∧
    OtherElementsSame .combine s t

/-- R193: COMBINE of one share gives that share's bytes, without an error. -/
def Obligations.CombineOfOneShareCopies : Prop :=
  ∀ s : State, s.scnt = 1 → shIdx s 0 ≠ 0 → 1 ≤ (shareLen s 0).toNat → (shareLen s 0).toNat ≤ s.lmax.val →
    ∃ t, exec .combine s = .next t ∧ t.status = 0x80 ∧ t.errcode = 0x00 ∧ t.slen = shareLen s 0 ∧
      ∀ p < (shareLen s 0).toNat, sec t p = elemByte s (.shData 0 p)

/-- R193: two shares of a threshold-3 split combine without an error to `secret[p] ⊕ c2·x1·x2` at every position `p`, `c2`
being that position's coefficient of `x^2` and `x1`, `x2` the two shares' indices; with the law of interpolation it rests on. -/
def Obligations.TwoSharesOfThree : Prop :=
  (∀ (s t u : State) (answer : Nat → List Byte) (i j : Nat), exec .split s = .next t → t.errcode = 0x00 → s.t = 3 →
    RngSupplies s s.slen.toNat 2 answer → i < s.n.toNat → j < s.n.toNat → i ≠ j → u.lmax = s.lmax → u.scnt = 2 →
    SameShare t i u 0 → SameShare t j u 1 →
    ∃ v, exec .combine u = .next v ∧ v.status = 0x80 ∧ v.errcode = 0x00 ∧ v.slen = s.slen ∧
      ∀ p < s.slen.toNat,
        sec v p = sec s p ^^^ gfMul (gfMul (coefficient s answer p 2) (xValue s i)) (xValue s j)) ∧
  ∀ c0 c1 c2 x1 x2 : Byte, x1 ≠ x2 →
    lagAtZero [x1, x2] [horner [c0, c1, c2] x1, horner [c0, c1, c2] x2] = some (c0 ^^^ gfMul (gfMul c2 x1) x2)

/-- R194 (a): permuting the contents of slots 0 to SCNT-1 among themselves does not change what COMBINE does. -/
def Obligations.ShareOrderIrrelevant : Prop :=
  ∀ (s u : State) (place : Nat → Nat), u.lmax = s.lmax → u.scnt = s.scnt → (∀ i < s.scnt.toNat, place i < s.scnt.toNat) →
    (∀ i j, i < s.scnt.toNat → j < s.scnt.toNat → place i = place j → i = j) →
    (∀ i < s.scnt.toNat, SameShare s (place i) u i) →
    ∃ t v, exec .combine s = .next t ∧ exec .combine u = .next v ∧ t.status = v.status ∧ t.errcode = v.errcode ∧
      (t.errcode = 0x00 → t.slen = v.slen ∧ ∀ p < t.slen.toNat, sec t p = sec v p)

/-- R194 (b), the round-trip law: any `k` shares of a successful SPLIT with `T ≤ k ≤ N`, placed in slots 0 to k-1 in any
order, combine to the secret, whatever the source answered. -/
def Obligations.SplitCombineRoundTrip : Prop :=
  ∀ (s t u : State) (place : Nat → Nat), exec .split s = .next t → t.errcode = 0x00 →
    u.lmax = s.lmax → s.t.toNat ≤ u.scnt.toNat → u.scnt.toNat ≤ s.n.toNat → (∀ i < u.scnt.toNat, place i < s.n.toNat) →
    (∀ i j, i < u.scnt.toNat → j < u.scnt.toNat → place i = place j → i = j) →
    (∀ i < u.scnt.toNat, SameShare t (place i) u i) →
    ∃ v, exec .combine u = .next v ∧ v.status = 0x80 ∧ v.errcode = 0x00 ∧ v.slen = s.slen ∧
      ∀ p < s.slen.toNat, sec v p = sec s p
end

