-- ==== Sys2Proof/Laws/State.lean ====
section
/-!
SUPPORT. One lemma per field of State and named update, true by unfolding the update alone, so that no later proof unfolds
a record update.
-/

namespace Sys2Proof.Machine

variable (s : State)

/-! ### setRes -/

@[simp] theorem setRes_lmax (v : Byte) : (setRes s v).lmax = s.lmax := rfl
@[simp] theorem setRes_status (v : Byte) : (setRes s v).status = s.status := rfl
@[simp] theorem setRes_errcode (v : Byte) : (setRes s v).errcode = s.errcode := rfl
@[simp] theorem setRes_res (v : Byte) : (setRes s v).res = v := rfl
@[simp] theorem setRes_opa (v : Byte) : (setRes s v).opa = s.opa := rfl
@[simp] theorem setRes_opb (v : Byte) : (setRes s v).opb = s.opb := rfl
@[simp] theorem setRes_deg (v : Byte) : (setRes s v).deg = s.deg := rfl
@[simp] theorem setRes_ctrl (v : Byte) : (setRes s v).ctrl = s.ctrl := rfl
@[simp] theorem setRes_exp (v : Byte) : (setRes s v).exp = s.exp := rfl
@[simp] theorem setRes_xcnt (v : Byte) : (setRes s v).xcnt = s.xcnt := rfl
@[simp] theorem setRes_ycnt (v : Byte) : (setRes s v).ycnt = s.ycnt := rfl
@[simp] theorem setRes_t (v : Byte) : (setRes s v).t = s.t := rfl
@[simp] theorem setRes_n (v : Byte) : (setRes s v).n = s.n := rfl
@[simp] theorem setRes_scnt (v : Byte) : (setRes s v).scnt = s.scnt := rfl
@[simp] theorem setRes_slen (v : Byte) : (setRes s v).slen = s.slen := rfl
@[simp] theorem setRes_mem (v : Byte) : (setRes s v).mem = s.mem := rfl
@[simp] theorem setRes_epoch (v : Byte) : (setRes s v).epoch = s.epoch := rfl
@[simp] theorem setRes_rng (v : Byte) : (setRes s v).rng = s.rng := rfl
@[simp] theorem setRes_rngLog (v : Byte) : (setRes s v).rngLog = s.rngLog := rfl
@[simp] theorem setRes_host (v : Byte) : (setRes s v).host = s.host := rfl
@[simp] theorem setRes_resp (v : Byte) : (setRes s v).resp = s.resp := rfl

/-! ### setMem -/

@[simp] theorem setMem_lmax (m : Memory) : (setMem s m).lmax = s.lmax := rfl
@[simp] theorem setMem_status (m : Memory) : (setMem s m).status = s.status := rfl
@[simp] theorem setMem_errcode (m : Memory) : (setMem s m).errcode = s.errcode := rfl
@[simp] theorem setMem_res (m : Memory) : (setMem s m).res = s.res := rfl
@[simp] theorem setMem_opa (m : Memory) : (setMem s m).opa = s.opa := rfl
@[simp] theorem setMem_opb (m : Memory) : (setMem s m).opb = s.opb := rfl
@[simp] theorem setMem_deg (m : Memory) : (setMem s m).deg = s.deg := rfl
@[simp] theorem setMem_ctrl (m : Memory) : (setMem s m).ctrl = s.ctrl := rfl
@[simp] theorem setMem_exp (m : Memory) : (setMem s m).exp = s.exp := rfl
@[simp] theorem setMem_xcnt (m : Memory) : (setMem s m).xcnt = s.xcnt := rfl
@[simp] theorem setMem_ycnt (m : Memory) : (setMem s m).ycnt = s.ycnt := rfl
@[simp] theorem setMem_t (m : Memory) : (setMem s m).t = s.t := rfl
@[simp] theorem setMem_n (m : Memory) : (setMem s m).n = s.n := rfl
@[simp] theorem setMem_scnt (m : Memory) : (setMem s m).scnt = s.scnt := rfl
@[simp] theorem setMem_slen (m : Memory) : (setMem s m).slen = s.slen := rfl
@[simp] theorem setMem_mem (m : Memory) : (setMem s m).mem = m := rfl
@[simp] theorem setMem_epoch (m : Memory) : (setMem s m).epoch = s.epoch := rfl
@[simp] theorem setMem_rng (m : Memory) : (setMem s m).rng = s.rng := rfl
@[simp] theorem setMem_rngLog (m : Memory) : (setMem s m).rngLog = s.rngLog := rfl
@[simp] theorem setMem_host (m : Memory) : (setMem s m).host = s.host := rfl
@[simp] theorem setMem_resp (m : Memory) : (setMem s m).resp = s.resp := rfl

/-! ### setSlen -/

@[simp] theorem setSlen_lmax (v : Half) : (setSlen s v).lmax = s.lmax := rfl
@[simp] theorem setSlen_status (v : Half) : (setSlen s v).status = s.status := rfl
@[simp] theorem setSlen_errcode (v : Half) : (setSlen s v).errcode = s.errcode := rfl
@[simp] theorem setSlen_res (v : Half) : (setSlen s v).res = s.res := rfl
@[simp] theorem setSlen_opa (v : Half) : (setSlen s v).opa = s.opa := rfl
@[simp] theorem setSlen_opb (v : Half) : (setSlen s v).opb = s.opb := rfl
@[simp] theorem setSlen_deg (v : Half) : (setSlen s v).deg = s.deg := rfl
@[simp] theorem setSlen_ctrl (v : Half) : (setSlen s v).ctrl = s.ctrl := rfl
@[simp] theorem setSlen_exp (v : Half) : (setSlen s v).exp = s.exp := rfl
@[simp] theorem setSlen_xcnt (v : Half) : (setSlen s v).xcnt = s.xcnt := rfl
@[simp] theorem setSlen_ycnt (v : Half) : (setSlen s v).ycnt = s.ycnt := rfl
@[simp] theorem setSlen_t (v : Half) : (setSlen s v).t = s.t := rfl
@[simp] theorem setSlen_n (v : Half) : (setSlen s v).n = s.n := rfl
@[simp] theorem setSlen_scnt (v : Half) : (setSlen s v).scnt = s.scnt := rfl
@[simp] theorem setSlen_slen (v : Half) : (setSlen s v).slen = v := rfl
@[simp] theorem setSlen_mem (v : Half) : (setSlen s v).mem = s.mem := rfl
@[simp] theorem setSlen_epoch (v : Half) : (setSlen s v).epoch = s.epoch := rfl
@[simp] theorem setSlen_rng (v : Half) : (setSlen s v).rng = s.rng := rfl
@[simp] theorem setSlen_rngLog (v : Half) : (setSlen s v).rngLog = s.rngLog := rfl
@[simp] theorem setSlen_host (v : Half) : (setSlen s v).host = s.host := rfl
@[simp] theorem setSlen_resp (v : Half) : (setSlen s v).resp = s.resp := rfl

/-! ### succeed -/

@[simp] theorem succeed_lmax : (succeed s).lmax = s.lmax := rfl
@[simp] theorem succeed_status : (succeed s).status = statusDone 0 := rfl
@[simp] theorem succeed_errcode : (succeed s).errcode = 0x00 := rfl
@[simp] theorem succeed_res : (succeed s).res = s.res := rfl
@[simp] theorem succeed_opa : (succeed s).opa = s.opa := rfl
@[simp] theorem succeed_opb : (succeed s).opb = s.opb := rfl
@[simp] theorem succeed_deg : (succeed s).deg = s.deg := rfl
@[simp] theorem succeed_ctrl : (succeed s).ctrl = s.ctrl := rfl
@[simp] theorem succeed_exp : (succeed s).exp = s.exp := rfl
@[simp] theorem succeed_xcnt : (succeed s).xcnt = s.xcnt := rfl
@[simp] theorem succeed_ycnt : (succeed s).ycnt = s.ycnt := rfl
@[simp] theorem succeed_t : (succeed s).t = s.t := rfl
@[simp] theorem succeed_n : (succeed s).n = s.n := rfl
@[simp] theorem succeed_scnt : (succeed s).scnt = s.scnt := rfl
@[simp] theorem succeed_slen : (succeed s).slen = s.slen := rfl
@[simp] theorem succeed_mem : (succeed s).mem = s.mem := rfl
@[simp] theorem succeed_epoch : (succeed s).epoch = s.epoch := rfl
@[simp] theorem succeed_rng : (succeed s).rng = s.rng := rfl
@[simp] theorem succeed_rngLog : (succeed s).rngLog = s.rngLog := rfl
@[simp] theorem succeed_host : (succeed s).host = s.host := rfl
@[simp] theorem succeed_resp : (succeed s).resp = s.resp := rfl

/-! ### failWith -/

@[simp] theorem failWith_lmax (c : Cause) : (failWith s c).lmax = s.lmax := rfl
@[simp] theorem failWith_status (c : Cause) : (failWith s c).status = statusDone (kindCode (causeKind c)) := rfl
@[simp] theorem failWith_errcode (c : Cause) : (failWith s c).errcode = causeCode c := rfl
@[simp] theorem failWith_res (c : Cause) : (failWith s c).res = s.res := rfl
@[simp] theorem failWith_opa (c : Cause) : (failWith s c).opa = s.opa := rfl
@[simp] theorem failWith_opb (c : Cause) : (failWith s c).opb = s.opb := rfl
@[simp] theorem failWith_deg (c : Cause) : (failWith s c).deg = s.deg := rfl
@[simp] theorem failWith_ctrl (c : Cause) : (failWith s c).ctrl = s.ctrl := rfl
@[simp] theorem failWith_exp (c : Cause) : (failWith s c).exp = s.exp := rfl
@[simp] theorem failWith_xcnt (c : Cause) : (failWith s c).xcnt = s.xcnt := rfl
@[simp] theorem failWith_ycnt (c : Cause) : (failWith s c).ycnt = s.ycnt := rfl
@[simp] theorem failWith_t (c : Cause) : (failWith s c).t = s.t := rfl
@[simp] theorem failWith_n (c : Cause) : (failWith s c).n = s.n := rfl
@[simp] theorem failWith_scnt (c : Cause) : (failWith s c).scnt = s.scnt := rfl
@[simp] theorem failWith_slen (c : Cause) : (failWith s c).slen = s.slen := rfl
@[simp] theorem failWith_mem (c : Cause) : (failWith s c).mem = s.mem := rfl
@[simp] theorem failWith_epoch (c : Cause) : (failWith s c).epoch = s.epoch := rfl
@[simp] theorem failWith_rng (c : Cause) : (failWith s c).rng = s.rng := rfl
@[simp] theorem failWith_rngLog (c : Cause) : (failWith s c).rngLog = s.rngLog := rfl
@[simp] theorem failWith_host (c : Cause) : (failWith s c).host = s.host := rfl
@[simp] theorem failWith_resp (c : Cause) : (failWith s c).resp = s.resp := rfl

/-! ### closeRequest -/

@[simp] theorem closeRequest_lmax (len taken : Nat) : (closeRequest s len taken).lmax = s.lmax := rfl
@[simp] theorem closeRequest_status (len taken : Nat) : (closeRequest s len taken).status = s.status := rfl
@[simp] theorem closeRequest_errcode (len taken : Nat) : (closeRequest s len taken).errcode = s.errcode := rfl
@[simp] theorem closeRequest_res (len taken : Nat) : (closeRequest s len taken).res = s.res := rfl
@[simp] theorem closeRequest_opa (len taken : Nat) : (closeRequest s len taken).opa = s.opa := rfl
@[simp] theorem closeRequest_opb (len taken : Nat) : (closeRequest s len taken).opb = s.opb := rfl
@[simp] theorem closeRequest_deg (len taken : Nat) : (closeRequest s len taken).deg = s.deg := rfl
@[simp] theorem closeRequest_ctrl (len taken : Nat) : (closeRequest s len taken).ctrl = s.ctrl := rfl
@[simp] theorem closeRequest_exp (len taken : Nat) : (closeRequest s len taken).exp = s.exp := rfl
@[simp] theorem closeRequest_xcnt (len taken : Nat) : (closeRequest s len taken).xcnt = s.xcnt := rfl
@[simp] theorem closeRequest_ycnt (len taken : Nat) : (closeRequest s len taken).ycnt = s.ycnt := rfl
@[simp] theorem closeRequest_t (len taken : Nat) : (closeRequest s len taken).t = s.t := rfl
@[simp] theorem closeRequest_n (len taken : Nat) : (closeRequest s len taken).n = s.n := rfl
@[simp] theorem closeRequest_scnt (len taken : Nat) : (closeRequest s len taken).scnt = s.scnt := rfl
@[simp] theorem closeRequest_slen (len taken : Nat) : (closeRequest s len taken).slen = s.slen := rfl
@[simp] theorem closeRequest_mem (len taken : Nat) : (closeRequest s len taken).mem = s.mem := rfl
@[simp] theorem closeRequest_epoch (len taken : Nat) : (closeRequest s len taken).epoch = s.epoch := rfl
@[simp] theorem closeRequest_rng (len taken : Nat) : (closeRequest s len taken).rng = s.rng.tail := rfl
@[simp] theorem closeRequest_rngLog (len taken : Nat) : (closeRequest s len taken).rngLog = ⟨len, taken⟩ :: s.rngLog := rfl
@[simp] theorem closeRequest_host (len taken : Nat) : (closeRequest s len taken).host = s.host := rfl
@[simp] theorem closeRequest_resp (len taken : Nat) : (closeRequest s len taken).resp = s.resp := rfl

/-! ### writePoly -/

@[simp] theorem writePoly_lmax (c : List Byte) : (writePoly s c).lmax = s.lmax := rfl
@[simp] theorem writePoly_status (c : List Byte) : (writePoly s c).status = s.status := rfl
@[simp] theorem writePoly_errcode (c : List Byte) : (writePoly s c).errcode = s.errcode := rfl
@[simp] theorem writePoly_res (c : List Byte) : (writePoly s c).res = s.res := rfl
@[simp] theorem writePoly_opa (c : List Byte) : (writePoly s c).opa = s.opa := rfl
@[simp] theorem writePoly_opb (c : List Byte) : (writePoly s c).opb = s.opb := rfl
@[simp] theorem writePoly_deg (c : List Byte) : (writePoly s c).deg = s.deg := rfl
@[simp] theorem writePoly_ctrl (c : List Byte) : (writePoly s c).ctrl = s.ctrl := rfl
@[simp] theorem writePoly_exp (c : List Byte) : (writePoly s c).exp = s.exp := rfl
@[simp] theorem writePoly_xcnt (c : List Byte) : (writePoly s c).xcnt = s.xcnt := rfl
@[simp] theorem writePoly_ycnt (c : List Byte) : (writePoly s c).ycnt = s.ycnt := rfl
@[simp] theorem writePoly_t (c : List Byte) : (writePoly s c).t = s.t := rfl
@[simp] theorem writePoly_n (c : List Byte) : (writePoly s c).n = s.n := rfl
@[simp] theorem writePoly_scnt (c : List Byte) : (writePoly s c).scnt = s.scnt := rfl
@[simp] theorem writePoly_slen (c : List Byte) : (writePoly s c).slen = s.slen := rfl
@[simp] theorem writePoly_mem (c : List Byte) : (writePoly s c).mem = memInsertList s.mem (Loc.addr (.coef 0)) c := rfl
@[simp] theorem writePoly_epoch (c : List Byte) : (writePoly s c).epoch = s.epoch := rfl
@[simp] theorem writePoly_rng (c : List Byte) : (writePoly s c).rng = s.rng := rfl
@[simp] theorem writePoly_rngLog (c : List Byte) : (writePoly s c).rngLog = s.rngLog := rfl
@[simp] theorem writePoly_host (c : List Byte) : (writePoly s c).host = s.host := rfl
@[simp] theorem writePoly_resp (c : List Byte) : (writePoly s c).resp = s.resp := rfl

/-! ### writeSecret -/

@[simp] theorem writeSecret_lmax (b : List Byte) : (writeSecret s b).lmax = s.lmax := rfl
@[simp] theorem writeSecret_status (b : List Byte) : (writeSecret s b).status = s.status := rfl
@[simp] theorem writeSecret_errcode (b : List Byte) : (writeSecret s b).errcode = s.errcode := rfl
@[simp] theorem writeSecret_res (b : List Byte) : (writeSecret s b).res = s.res := rfl
@[simp] theorem writeSecret_opa (b : List Byte) : (writeSecret s b).opa = s.opa := rfl
@[simp] theorem writeSecret_opb (b : List Byte) : (writeSecret s b).opb = s.opb := rfl
@[simp] theorem writeSecret_deg (b : List Byte) : (writeSecret s b).deg = s.deg := rfl
@[simp] theorem writeSecret_ctrl (b : List Byte) : (writeSecret s b).ctrl = s.ctrl := rfl
@[simp] theorem writeSecret_exp (b : List Byte) : (writeSecret s b).exp = s.exp := rfl
@[simp] theorem writeSecret_xcnt (b : List Byte) : (writeSecret s b).xcnt = s.xcnt := rfl
@[simp] theorem writeSecret_ycnt (b : List Byte) : (writeSecret s b).ycnt = s.ycnt := rfl
@[simp] theorem writeSecret_t (b : List Byte) : (writeSecret s b).t = s.t := rfl
@[simp] theorem writeSecret_n (b : List Byte) : (writeSecret s b).n = s.n := rfl
@[simp] theorem writeSecret_scnt (b : List Byte) : (writeSecret s b).scnt = s.scnt := rfl
@[simp] theorem writeSecret_slen (b : List Byte) : (writeSecret s b).slen = s.slen := rfl
@[simp] theorem writeSecret_mem (b : List Byte) : (writeSecret s b).mem = memInsertList s.mem (Loc.addr (.sec 0)) b := rfl
@[simp] theorem writeSecret_epoch (b : List Byte) : (writeSecret s b).epoch = s.epoch := rfl
@[simp] theorem writeSecret_rng (b : List Byte) : (writeSecret s b).rng = s.rng := rfl
@[simp] theorem writeSecret_rngLog (b : List Byte) : (writeSecret s b).rngLog = s.rngLog := rfl
@[simp] theorem writeSecret_host (b : List Byte) : (writeSecret s b).host = s.host := rfl
@[simp] theorem writeSecret_resp (b : List Byte) : (writeSecret s b).resp = s.resp := rfl

/-! ### setHost -/

@[simp] theorem setHost_lmax (m : List HostMove) : (setHost s m).lmax = s.lmax := rfl
@[simp] theorem setHost_status (m : List HostMove) : (setHost s m).status = s.status := rfl
@[simp] theorem setHost_errcode (m : List HostMove) : (setHost s m).errcode = s.errcode := rfl
@[simp] theorem setHost_res (m : List HostMove) : (setHost s m).res = s.res := rfl
@[simp] theorem setHost_opa (m : List HostMove) : (setHost s m).opa = s.opa := rfl
@[simp] theorem setHost_opb (m : List HostMove) : (setHost s m).opb = s.opb := rfl
@[simp] theorem setHost_deg (m : List HostMove) : (setHost s m).deg = s.deg := rfl
@[simp] theorem setHost_ctrl (m : List HostMove) : (setHost s m).ctrl = s.ctrl := rfl
@[simp] theorem setHost_exp (m : List HostMove) : (setHost s m).exp = s.exp := rfl
@[simp] theorem setHost_xcnt (m : List HostMove) : (setHost s m).xcnt = s.xcnt := rfl
@[simp] theorem setHost_ycnt (m : List HostMove) : (setHost s m).ycnt = s.ycnt := rfl
@[simp] theorem setHost_t (m : List HostMove) : (setHost s m).t = s.t := rfl
@[simp] theorem setHost_n (m : List HostMove) : (setHost s m).n = s.n := rfl
@[simp] theorem setHost_scnt (m : List HostMove) : (setHost s m).scnt = s.scnt := rfl
@[simp] theorem setHost_slen (m : List HostMove) : (setHost s m).slen = s.slen := rfl
@[simp] theorem setHost_mem (m : List HostMove) : (setHost s m).mem = s.mem := rfl
@[simp] theorem setHost_epoch (m : List HostMove) : (setHost s m).epoch = s.epoch := rfl
@[simp] theorem setHost_rng (m : List HostMove) : (setHost s m).rng = s.rng := rfl
@[simp] theorem setHost_rngLog (m : List HostMove) : (setHost s m).rngLog = s.rngLog := rfl
@[simp] theorem setHost_host (m : List HostMove) : (setHost s m).host = m := rfl
@[simp] theorem setHost_resp (m : List HostMove) : (setHost s m).resp = s.resp := rfl

/-! ### respond -/

@[simp] theorem respond_lmax (r : HostResponse) : (respond s r).lmax = s.lmax := rfl
@[simp] theorem respond_status (r : HostResponse) : (respond s r).status = s.status := rfl
@[simp] theorem respond_errcode (r : HostResponse) : (respond s r).errcode = s.errcode := rfl
@[simp] theorem respond_res (r : HostResponse) : (respond s r).res = s.res := rfl
@[simp] theorem respond_opa (r : HostResponse) : (respond s r).opa = s.opa := rfl
@[simp] theorem respond_opb (r : HostResponse) : (respond s r).opb = s.opb := rfl
@[simp] theorem respond_deg (r : HostResponse) : (respond s r).deg = s.deg := rfl
@[simp] theorem respond_ctrl (r : HostResponse) : (respond s r).ctrl = s.ctrl := rfl
@[simp] theorem respond_exp (r : HostResponse) : (respond s r).exp = s.exp := rfl
@[simp] theorem respond_xcnt (r : HostResponse) : (respond s r).xcnt = s.xcnt := rfl
@[simp] theorem respond_ycnt (r : HostResponse) : (respond s r).ycnt = s.ycnt := rfl
@[simp] theorem respond_t (r : HostResponse) : (respond s r).t = s.t := rfl
@[simp] theorem respond_n (r : HostResponse) : (respond s r).n = s.n := rfl
@[simp] theorem respond_scnt (r : HostResponse) : (respond s r).scnt = s.scnt := rfl
@[simp] theorem respond_slen (r : HostResponse) : (respond s r).slen = s.slen := rfl
@[simp] theorem respond_mem (r : HostResponse) : (respond s r).mem = s.mem := rfl
@[simp] theorem respond_epoch (r : HostResponse) : (respond s r).epoch = s.epoch := rfl
@[simp] theorem respond_rng (r : HostResponse) : (respond s r).rng = s.rng := rfl
@[simp] theorem respond_rngLog (r : HostResponse) : (respond s r).rngLog = s.rngLog := rfl
@[simp] theorem respond_host (r : HostResponse) : (respond s r).host = s.host := rfl
@[simp] theorem respond_resp (r : HostResponse) : (respond s r).resp = some r := rfl

/-! ### resetBlock -/

@[simp] theorem resetBlock_lmax : (resetBlock s).lmax = s.lmax := rfl
@[simp] theorem resetBlock_status : (resetBlock s).status = 0 := rfl
@[simp] theorem resetBlock_errcode : (resetBlock s).errcode = 0 := rfl
@[simp] theorem resetBlock_res : (resetBlock s).res = 0 := rfl
@[simp] theorem resetBlock_opa : (resetBlock s).opa = 0 := rfl
@[simp] theorem resetBlock_opb : (resetBlock s).opb = 0 := rfl
@[simp] theorem resetBlock_deg : (resetBlock s).deg = 0 := rfl
@[simp] theorem resetBlock_ctrl : (resetBlock s).ctrl = 0 := rfl
@[simp] theorem resetBlock_exp : (resetBlock s).exp = 0 := rfl
@[simp] theorem resetBlock_xcnt : (resetBlock s).xcnt = 0 := rfl
@[simp] theorem resetBlock_ycnt : (resetBlock s).ycnt = 0 := rfl
@[simp] theorem resetBlock_t : (resetBlock s).t = 0 := rfl
@[simp] theorem resetBlock_n : (resetBlock s).n = 0 := rfl
@[simp] theorem resetBlock_scnt : (resetBlock s).scnt = 0 := rfl
@[simp] theorem resetBlock_slen : (resetBlock s).slen = 0 := rfl
@[simp] theorem resetBlock_mem : (resetBlock s).mem = [] := rfl
@[simp] theorem resetBlock_epoch : (resetBlock s).epoch = s.epoch + 1 := rfl
@[simp] theorem resetBlock_rng : (resetBlock s).rng = s.rng := rfl
@[simp] theorem resetBlock_rngLog : (resetBlock s).rngLog = s.rngLog := rfl
@[simp] theorem resetBlock_host : (resetBlock s).host = s.host := rfl
@[simp] theorem resetBlock_resp : (resetBlock s).resp = none := rfl

end Sys2Proof.Machine
end

