-- ==== Sys2Proof/Laws/Memory.lean ====
section
/-!
SUPPORT. The laws of the buffers' memory: what a read gives after a write, and that every memory operation keeps the one
canonical form (addresses strictly rising).
-/

namespace Sys2Proof.Machine

/-! ### Reading after writing -/

theorem memLookup_memInsert_self (m : Memory) (a : Nat) (v : Byte) : memLookup (memInsert m a v) a = some v := by
  induction m with
  | nil => simp [memInsert, memLookup]
  | cons c m ih =>
    unfold memInsert
    split
    · simp [memLookup]
    · split
      · simp [memLookup]
      · rename_i h
        simp [memLookup, Ne.symm h, ih]

theorem memLookup_memInsert_of_ne (m : Memory) {a b : Nat} (v : Byte) (h : b ≠ a) :
    memLookup (memInsert m a v) b = memLookup m b := by
  induction m with
  | nil => simp [memInsert, memLookup, h.symm]
  | cons c m ih =>
    unfold memInsert
    split
    · simp [memLookup, h.symm]
    · split
      · rename_i h'
        subst h'
        simp [memLookup, h.symm]
      · simp [memLookup, ih]

/-- Consecutive bytes written from `a` on: inside the range the byte written is read, outside nothing changed. -/
theorem memLookup_memInsertList (m : Memory) (a b : Nat) (vs : List Byte) :
    memLookup (memInsertList m a vs) b =
      if a ≤ b ∧ b < a + vs.length then vs[b - a]? else memLookup m b := by
  induction vs generalizing m a with
  | nil => simp [memInsertList]
  | cons v vs ih =>
    rw [memInsertList, ih]
    by_cases hb : b = a
    · subst hb
      simp [memLookup_memInsert_self]
    · rw [memLookup_memInsert_of_ne m v hb]
      by_cases h : a ≤ b ∧ b < a + (v :: vs).length
      · have hlt : a + 1 ≤ b := by omega
        have hsub : b - a = (b - (a + 1)) + 1 := by omega
        simp only [List.length_cons] at h
        rw [if_pos (by omega), if_pos (by simpa using h), hsub, List.getElem?_cons_succ]
      · simp only [List.length_cons] at h
        rw [if_neg (by omega), if_neg (by simpa using h)]

theorem memLookup_memInsertList_of_outside (m : Memory) {a b : Nat} (vs : List Byte) (h : b < a ∨ a + vs.length ≤ b) :
    memLookup (memInsertList m a vs) b = memLookup m b := by
  rw [memLookup_memInsertList, if_neg (by omega)]

/-! ### The canonical form -/

theorem memWf_tail {c : Host.Cell} {m : Memory} (h : memWf (c :: m) = true) : memWf m = true := by
  cases m with
  | nil => rfl
  | cons d m => simp [memWf] at h; exact h.2

theorem memWf_head_le_memInsert {c : Host.Cell} {m : Memory} {a : Nat} {v : Byte} (h : memWf (c :: m) = true)
    (ha : c.1 < a) (hm : memWf (memInsert m a v) = true) : memWf (c :: memInsert m a v) = true := by
  cases m with
  | nil => simpa [memInsert, memWf] using ha
  | cons d m =>
    simp only [memWf, Bool.and_eq_true, decide_eq_true_eq] at h
    unfold memInsert at hm ⊢
    split <;> rename_i h1
    · simp_all [memWf]
    · split <;> rename_i h2
      · simp_all [memWf]
      · simp_all [memWf]

theorem memWf_memInsert {m : Memory} (h : memWf m = true) (a : Nat) (v : Byte) : memWf (memInsert m a v) = true := by
  induction m with
  | nil => rfl
  | cons c m ih =>
    have hm := ih (memWf_tail h)
    unfold memInsert
    split <;> rename_i h1
    · simpa [memWf, h1] using h
    · split <;> rename_i h2
      · subst h2
        cases m with
        | nil => rfl
        | cons d m => simpa [memWf] using h
      · exact memWf_head_le_memInsert h (by omega) hm

theorem memWf_memInsertList {m : Memory} (h : memWf m = true) (a : Nat) (vs : List Byte) :
    memWf (memInsertList m a vs) = true := by
  induction vs generalizing m a with
  | nil => exact h
  | cons v vs ih => exact ih (memWf_memInsert h a v) (a + 1)

theorem memWf_writeSlot {m : Memory} (h : memWf m = true) (i : Nat) (x : Byte) (len : Half) (bytes : List Byte) :
    memWf (writeSlot m i x len bytes) = true :=
  memWf_memInsertList (memWf_memInsertList (memWf_memInsert h _ _) _ _) _ _

theorem memWf_writeSlots {m : Memory} (h : memWf m = true) (i : Nat) (len : Half) (polys : List (List Byte))
    (xs : List Byte) : memWf (writeSlots m i len polys xs) = true := by
  induction xs generalizing m i with
  | nil => exact h
  | cons x xs ih => exact ih (memWf_writeSlot h i x len _) (i + 1)

theorem memWf_reset : memWf State.reset.mem = true := rfl

/-! ### Which addresses are listed -/

theorem mem_memInsert {m : Memory} {a : Nat} {v : Byte} {c : Host.Cell} (h : c ∈ memInsert m a v) :
    c = (a, v) ∨ c ∈ m := by
  induction m with
  | nil => simpa [memInsert] using h
  | cons d m ih =>
    unfold memInsert at h
    split at h
    · simpa using h
    · split at h
      · rcases List.mem_cons.mp h with h | h
        · exact Or.inl h
        · exact Or.inr (List.mem_cons_of_mem _ h)
      · rcases List.mem_cons.mp h with h | h
        · exact Or.inr (h ▸ List.mem_cons_self)
        · rcases ih h with h | h
          · exact Or.inl h
          · exact Or.inr (List.mem_cons_of_mem _ h)

/-- A listed address after writing consecutive bytes was listed before or lies in the range written. -/
theorem mem_memInsertList {m : Memory} {a : Nat} {vs : List Byte} {c : Host.Cell} (h : c ∈ memInsertList m a vs) :
    (a ≤ c.1 ∧ c.1 < a + vs.length) ∨ c ∈ m := by
  induction vs generalizing m a with
  | nil => exact Or.inr h
  | cons v vs ih =>
    rcases ih h with h | h
    · left; simp only [List.length_cons]; omega
    · rcases mem_memInsert h with h | h
      · left; subst h; simp
      · exact Or.inr h

/-! ### Reading a buffer's byte -/

theorem bufferByte_setMem_memInsert_self (s : State) (a : Nat) (v : Byte) :
    bufferByte (setMem s (memInsert s.mem a v)) a = v := by
  simp [bufferByte, memLookup_memInsert_self]

theorem bufferByte_setMem_memInsert_of_ne (s : State) {a b : Nat} (v : Byte) (h : b ≠ a) :
    bufferByte (setMem s (memInsert s.mem a v)) b = bufferByte s b := by
  simp [bufferByte, memLookup_memInsert_of_ne _ _ h]

theorem bufferByte_setMem_memInsertList (s : State) (a b : Nat) (vs : List Byte) :
    bufferByte (setMem s (memInsertList s.mem a vs)) b =
      if h : a ≤ b ∧ b - a < vs.length then vs[b - a]'h.2 else bufferByte s b := by
  simp only [bufferByte, setMem_mem, setMem_epoch, memLookup_memInsertList]
  by_cases h : a ≤ b ∧ b - a < vs.length
  · rw [dif_pos h, if_pos (by omega), List.getElem?_eq_getElem h.2]; rfl
  · rw [dif_neg h, if_neg (by omega)]

/-- A command's end changes no buffer. -/
@[simp] theorem bufferByte_succeed (s : State) (a : Nat) : bufferByte (succeed s) a = bufferByte s a := rfl

@[simp] theorem bufferByte_failWith (s : State) (c : Cause) (a : Nat) : bufferByte (failWith s c) a = bufferByte s a := rfl

@[simp] theorem bufferByte_setRes (s : State) (v : Byte) (a : Nat) : bufferByte (setRes s v) a = bufferByte s a := rfl

@[simp] theorem bufferByte_setSlen (s : State) (v : Half) (a : Nat) : bufferByte (setSlen s v) a = bufferByte s a := rfl

@[simp] theorem bufferByte_closeRequest (s : State) (len taken a : Nat) :
    bufferByte (closeRequest s len taken) a = bufferByte s a := rfl

@[simp] theorem bufferByte_setHost (s : State) (m : List HostMove) (a : Nat) :
    bufferByte (setHost s m) a = bufferByte s a := rfl

@[simp] theorem bufferByte_respond (s : State) (r : HostResponse) (a : Nat) :
    bufferByte (respond s r) a = bufferByte s a := rfl

end Sys2Proof.Machine
end

