-- ==== Sys2Proof/Laws/Ops.lean ====
section
/-!
SUPPORT. One lemma per shared operation that says everything it can do, and the inversion lemmas of `exec`, `fetch` and
`step`: a proof cites these and unfolds no meaning.
-/

namespace Sys2Proof.Machine

/-! ### States that differ in the randomness port alone -/

/-- `s'` is `s` but for the randomness port: some requests of `d` bytes, `1 ≤ d`, were closed on the way. -/
def SameButRng (d : Nat) (s s' : State) : Prop :=
  ∃ news : List RngRequest, (∀ r ∈ news, r.len = d ∧ r.taken ≤ d ∧ 1 ≤ d) ∧
    s' = { s with rng := s'.rng, rngLog := news ++ s.rngLog }

theorem SameButRng.refl (d : Nat) (s : State) : SameButRng d s s := ⟨[], by simp, rfl⟩

theorem SameButRng.trans {d : Nat} {s s' s'' : State} (h : SameButRng d s s') (h' : SameButRng d s' s'') :
    SameButRng d s s'' := by
  obtain ⟨n, hn, e⟩ := h
  obtain ⟨n', hn', e'⟩ := h'
  refine ⟨n' ++ n, ?_, ?_⟩
  · intro r hr
    rcases List.mem_append.mp hr with hr | hr
    · exact hn' r hr
    · exact hn r hr
  · rw [e', e]; simp

theorem sameButRng_closeRequest (s : State) {d taken : Nat} (hd : 1 ≤ d) (ht : taken ≤ d) :
    SameButRng d s (closeRequest s d taken) := by
  refine ⟨[⟨d, taken⟩], ?_, rfl⟩
  simp [ht, hd]

section
variable {d : Nat} {s s' : State} (h : SameButRng d s s')
include h

theorem SameButRng.lmax_eq : s'.lmax = s.lmax := by obtain ⟨n, -, e⟩ := h; rw [e]
theorem SameButRng.mem_eq : s'.mem = s.mem := by obtain ⟨n, -, e⟩ := h; rw [e]
theorem SameButRng.epoch_eq : s'.epoch = s.epoch := by obtain ⟨n, -, e⟩ := h; rw [e]
theorem SameButRng.status_eq : s'.status = s.status := by obtain ⟨n, -, e⟩ := h; rw [e]
theorem SameButRng.errcode_eq : s'.errcode = s.errcode := by obtain ⟨n, -, e⟩ := h; rw [e]
theorem SameButRng.res_eq : s'.res = s.res := by obtain ⟨n, -, e⟩ := h; rw [e]
theorem SameButRng.slen_eq : s'.slen = s.slen := by obtain ⟨n, -, e⟩ := h; rw [e]
theorem SameButRng.ctrl_eq : s'.ctrl = s.ctrl := by obtain ⟨n, -, e⟩ := h; rw [e]

theorem SameButRng.bufferByte_eq (a : Nat) : bufferByte s' a = bufferByte s a := by
  simp [bufferByte, h.mem_eq, h.epoch_eq]

end

/-! ### The randomness port -/

/-- A request that closes: what was answered, what was accepted, and the state after (R81, R83, R87). -/
theorem rngDraw_eq_some {s s' : State} {len : Nat} {r : List Byte} (h : rngDraw s len = some (r, s')) :
    ∃ ans, rngAnswerAt s 0 len = .bytes ans ∧ r = ans.take len ∧ s' = closeRequest s len (min len ans.length) := by
  unfold rngDraw at h
  split at h
  · cases h
  · rename_i ans e
    simp only [Option.some.injEq, Prod.mk.injEq] at h
    exact ⟨ans, e, h.1.symm, h.2.symm⟩

/-- A request that does not close: the source never answers it (R85). -/
theorem rngDraw_eq_none {s : State} {len : Nat} (h : rngDraw s len = none) : rngAnswerAt s 0 len = .never := by
  unfold rngDraw at h
  split at h
  · assumption
  · cases h

/-- A polynomial that was built: its coefficients, and the requests made for them (R165). -/
theorem buildPoly_eq_done {s s' : State} {b : Byte} {d : Nat} {c : List Byte} (h : buildPoly s b d = .done c s') :
    c.length = d + 1 ∧ c.head? = some b ∧ SameButRng d s s' := by
  unfold buildPoly at h
  split at h
  · rename_i hd
    cases h
    subst hd
    exact ⟨rfl, rfl, .refl 0 s⟩
  · rename_i hd
    split at h
    · cases h
    · rename_i r s1 e
      obtain ⟨ans, -, hr, hs⟩ := rngDraw_eq_some e
      split at h
      · cases h
      · rename_i hl
        cases h
        subst hs
        refine ⟨?_, rfl, sameButRng_closeRequest s (by omega) (by omega)⟩
        have : r.length ≤ d := by rw [hr]; simp
        simp only [List.length_cons]; omega

/-- A polynomial that was not built because the answer was short: the one cause there is (R82). -/
theorem buildPoly_eq_raised {s s' : State} {b : Byte} {d : Nat} {c : Cause} (h : buildPoly s b d = .raised c s') :
    c = .valRngShort ∧ SameButRng d s s' := by
  unfold buildPoly at h
  split at h
  · cases h
  · rename_i hd
    split at h
    · cases h
    · rename_i r s1 e
      obtain ⟨ans, -, hr, hs⟩ := rngDraw_eq_some e
      split at h
      · cases h
        subst hs
        exact ⟨rfl, sameButRng_closeRequest s (by omega) (by omega)⟩
      · cases h

/-- The pass of SPLIT that came to its end: one polynomial per byte of the secret (R183). -/
theorem drawPolys_eq_done {s s' : State} {d : Nat} {bs : List Byte} {polys : List (List Byte)}
    (h : drawPolys s d bs = .done polys s') :
    polys.length = bs.length ∧ (∀ c ∈ polys, c.length = d + 1) ∧ SameButRng d s s' := by
  induction bs generalizing s polys with
  | nil => cases h; exact ⟨rfl, by simp, .refl d s'⟩
  | cons b bs ih =>
    unfold drawPolys at h
    split at h
    · cases h
    · cases h
    · rename_i c s1 e
      split at h
      · cases h
      · cases h
      · rename_i cs s2 e2
        cases h
        obtain ⟨h1, -, h3⟩ := buildPoly_eq_done e
        obtain ⟨h4, h5, h6⟩ := ih e2
        refine ⟨by simp [h4], ?_, h3.trans h6⟩
        intro c' hc'
        rcases List.mem_cons.mp hc' with hc' | hc'
        · exact hc' ▸ h1
        · exact h5 c' hc'

/-- The pass of SPLIT that stopped: a short answer, and nothing else (R184). -/
theorem drawPolys_eq_raised {s s' : State} {d : Nat} {bs : List Byte} {c : Cause}
    (h : drawPolys s d bs = .raised c s') : c = .valRngShort ∧ SameButRng d s s' := by
  induction bs generalizing s with
  | nil => cases h
  | cons b bs ih =>
    unfold drawPolys at h
    split at h
    · cases h
    · rename_i e
      cases h
      exact buildPoly_eq_raised e
    · rename_i c1 s1 e
      obtain ⟨-, -, h3⟩ := buildPoly_eq_done e
      split at h
      · cases h
      · rename_i e2
        cases h
        exact ⟨(ih e2).1, h3.trans (ih e2).2⟩
      · cases h

/-- The pass of COMBINE gives one byte per position (R192). -/
theorem combineBytes_length {s : State} {k : Nat} {ps : List Nat} {bytes : List Byte}
    (h : combineBytes s k ps = some bytes) : bytes.length = ps.length := by
  induction ps generalizing bytes with
  | nil => cases h; rfl
  | cons p ps ih =>
    unfold combineBytes at h
    split at h
    · rename_i b bs e1 e2
      cases h
      simp [ih e2]
    · cases h

/-! ### What the checks leave -/

/-- Where SPLIT's checks pass, the lengths and counts are in range (R181). -/
theorem splitCheck_eq_none {s : State} (h : splitCheck s = none) :
    1 ≤ s.slen.toNat ∧ s.slen.toNat ≤ s.lmax.val ∧ 1 ≤ s.t.toNat ∧ s.t.toNat ≤ s.n.toNat ∧ s.n.toNat ≤ 255 := by
  unfold splitCheck at h
  have hn := s.n.isLt
  split at h
  · cases h
  split at h
  · cases h
  split at h
  · cases h
  split at h
  · cases h
  split at h
  · cases h
  rename_i h1 h2 h3 h4 h5
  refine ⟨?_, by omega, ?_, by omega, by omega⟩
  · have : s.slen.toNat ≠ 0 := fun e => h1 (BitVec.eq_of_toNat_eq (by simpa using e))
    omega
  · have : s.t.toNat ≠ 0 := fun e => h3 (BitVec.eq_of_toNat_eq (by simpa using e))
    omega

/-- Where COMBINE's checks pass, the common length and the count are in range (R191). -/
theorem combineCheck_eq_none {s : State} (h : combineCheck s = none) :
    1 ≤ s.scnt.toNat ∧ 1 ≤ (shareLen s 0).toNat ∧ (shareLen s 0).toNat ≤ s.lmax.val ∧
      distinct (shareIndices s s.scnt.toNat) = true := by
  unfold combineCheck at h
  simp only at h
  split at h
  · cases h
  split at h
  · cases h
  split at h
  · cases h
  split at h
  · cases h
  split at h
  · cases h
  split at h
  · cases h
  rename_i h1 h2 h3 h4 h5 h6
  refine ⟨by omega, ?_, by omega, by simpa using h3⟩
  have : (shareLen s 0).toNat ≠ 0 := fun e => h5 (BitVec.eq_of_toNat_eq (by simpa using e))
  omega

/-! ### The inversion lemma of exec -/

/-- The state a command that succeeds leaves, before STATUS and ERRCODE are set: what the command writes (R46). `s` is the
state at launch, `s'` the state once its random bytes are drawn. -/
inductive Writes (s s' : State) : Instr → State → Prop where
  | res (i : Instr) (v : Byte) (h : i ≠ .xdistinct ∧ i ≠ .pbuild ∧ i ≠ .split ∧ i ≠ .combine) : Writes s s' i (setRes s' v)
  | xdistinct : Writes s s' .xdistinct s'
  | pbuild (c : List Byte) (h : c.length = s.deg.toNat + 1) : Writes s s' .pbuild (writePoly s' c)
  | split (polys : List (List Byte)) (h : polys.length = s.slen.toNat) (hc : splitCheck s = none) :
      Writes s s' .split (setMem s' (writeSlots s'.mem 0 s.slen polys (splitXs s)))
  | combine (bytes : List Byte) (h : bytes.length = (shareLen s 0).toNat) (hc : combineCheck s = none) :
      Writes s s' .combine (writeSecret (setSlen s' (shareLen s 0)) bytes)

/-- How many bytes a command asks for in one request (R87). -/
def requestLen (i : Instr) (s : State) : Nat :=
  match i with
  | .pbuild => s.deg.toNat
  | .split => s.t.toNat - 1
  | _ => 0

/-- Everything a command that ends can do: raise an error, or succeed with its writes (R212, R213). -/
theorem exec_eq_next {i : Instr} {s t : State} (h : exec i s = .next t) :
    ∃ s', SameButRng (requestLen i s) s s' ∧
      ((∃ c, t = failWith s' c) ∨ ∃ w, Writes s s' i w ∧ t = succeed w) := by
  have fin : ∀ {j : Instr} {s1 w t1 : State}, Writes s s1 j w → finish w = .next t1 →
      ∃ w, Writes s s1 j w ∧ t1 = succeed w := by
    intro j s1 w t1 hw e
    cases e
    exact ⟨w, hw, rfl⟩
  have resOr : ∀ {j : Instr} {c : Cause} {o : Option Byte},
      (j ≠ .xdistinct ∧ j ≠ .pbuild ∧ j ≠ .split ∧ j ≠ .combine) → finishResOr s c o = .next t →
      ∃ s', SameButRng (requestLen j s) s s' ∧ ((∃ c, t = failWith s' c) ∨ ∃ w, Writes s s' j w ∧ t = succeed w) := by
    intro j c o hj e
    refine ⟨s, .refl _ s, ?_⟩
    cases o with
    | none => cases e; exact Or.inl ⟨c, rfl⟩
    | some v => exact Or.inr (fin (.res j v hj) e)
  cases i with
  | gfadd => exact ⟨s, .refl _ s, Or.inr (fin (.res _ _ (by simp)) h)⟩
  | gfsub => exact ⟨s, .refl _ s, Or.inr (fin (.res _ _ (by simp)) h)⟩
  | gfxtime => exact ⟨s, .refl _ s, Or.inr (fin (.res _ _ (by simp)) h)⟩
  | gfmul => exact ⟨s, .refl _ s, Or.inr (fin (.res _ _ (by simp)) h)⟩
  | gfpow => exact ⟨s, .refl _ s, Or.inr (fin (.res _ _ (by simp)) h)⟩
  | gfinv => exact resOr (by simp) h
  | gfdiv => exact resOr (by simp) h
  | peval => exact ⟨s, .refl _ s, Or.inr (fin (.res _ _ (by simp)) h)⟩
  | xdistinct =>
    refine ⟨s, .refl _ s, ?_⟩
    simp only [exec, execXdistinct] at h
    split at h
    · exact Or.inr (fin .xdistinct h)
    · cases h; exact Or.inl ⟨_, rfl⟩
  | lbasis =>
    simp only [exec, execLbasis] at h
    split at h
    · cases h; exact ⟨s, .refl _ s, Or.inl ⟨_, rfl⟩⟩
    · exact resOr (by simp) h
  | linterp =>
    simp only [exec, execLinterp] at h
    split at h
    · cases h; exact ⟨s, .refl _ s, Or.inl ⟨_, rfl⟩⟩
    · exact resOr (by simp) h
  | linterp0 =>
    simp only [exec, execLinterp0] at h
    split at h
    · cases h; exact ⟨s, .refl _ s, Or.inl ⟨_, rfl⟩⟩
    · exact resOr (by simp) h
  | pbuild =>
    simp only [exec, execPbuild] at h
    split at h
    · rename_i c s1 e
      obtain ⟨h1, -, h3⟩ := buildPoly_eq_done e
      exact ⟨s1, h3, Or.inr (fin (.pbuild c h1) h)⟩
    · rename_i c s1 e
      cases h
      exact ⟨s1, (buildPoly_eq_raised e).2, Or.inl ⟨_, rfl⟩⟩
    · cases h
  | split =>
    simp only [exec, execSplit] at h
    split at h
    · cases h; exact ⟨s, .refl _ s, Or.inl ⟨_, rfl⟩⟩
    · rename_i hc
      split at h
      · cases h
      · rename_i c s1 e
        cases h
        exact ⟨s1, (drawPolys_eq_raised e).2, Or.inl ⟨_, rfl⟩⟩
      · rename_i polys s1 e
        obtain ⟨h1, -, h3⟩ := drawPolys_eq_done e
        exact ⟨s1, h3, Or.inr (fin (.split polys (by simpa [secretOperand] using h1) hc) h)⟩
  | combine =>
    refine ⟨s, .refl _ s, ?_⟩
    simp only [exec, execCombine] at h
    split at h
    · cases h; exact Or.inl ⟨_, rfl⟩
    · rename_i hc
      split at h
      · cases h; exact Or.inl ⟨_, rfl⟩
      · rename_i bytes e
        exact Or.inr (fin (.combine bytes (by simpa using combineBytes_length e) hc) h)

/-! ### The host port -/

/-- Everything a host write elsewhere than to CMD can do to the state: nothing, one register, or one byte of a buffer (R66). -/
theorem hostStore_eq_some {s s' : State} {a : Nat} {v : Byte} (h : hostStore s a v = some s') :
    (∃ l j, locAt s.lmax.val a = some (l, j) ∧ l.isBuffer = true ∧ s' = setMem s (memInsert s.mem a v)) ∨
      (∃ opa opb deg xcnt ycnt t n scnt exp slen, s' = { s with
        opa := opa, opb := opb, deg := deg, xcnt := xcnt, ycnt := ycnt, t := t, n := n, scnt := scnt, exp := exp,
        slen := slen }) ∨ s' = { s with ctrl := ctrlKeep v } := by
  unfold hostStore at h
  split at h
  case h_1 => cases h
  all_goals
    rename_i e
    simp only [Option.some.injEq] at h
    subst h
    first
      | exact Or.inl ⟨_, _, e, rfl, rfl⟩
      | exact Or.inr (Or.inr rfl)
      | exact Or.inr (Or.inl ⟨_, _, _, _, _, _, _, _, _, _, rfl⟩)

/-- Where MemRead and MemWrite are defined: 1, 2 or 4 addresses that all belong to one location (R70). -/
theorem inOneLocation_iff {lmax a n : Nat} : inOneLocation lmax a n = true ↔
    (n = 1 ∨ n = 2 ∨ n = 4) ∧ ∃ l, ∀ k < n, ∃ j, locAt lmax (a + k) = some (l, j) := by
  unfold inOneLocation
  rw [Bool.and_eq_true, decide_eq_true_iff]
  refine and_congr_right fun hn => ?_
  have h0 : 0 < n := by omega
  split <;> rename_i e
  · simp only [Bool.false_eq_true, false_iff]
    rintro ⟨l, hl⟩
    obtain ⟨j, hj⟩ := hl 0 h0
    rw [Nat.add_zero, e] at hj
    cases hj
  · rename_i l i
    simp only [List.all_eq_true, List.mem_range, decide_eq_true_iff, Option.map_eq_some_iff, Prod.exists,
      exists_and_right, exists_eq_right]
    refine ⟨fun h => ⟨l, h⟩, ?_⟩
    rintro ⟨l', h⟩
    obtain ⟨j, hj⟩ := h 0 h0
    rw [Nat.add_zero, e] at hj
    cases hj
    exact h

/-- The bytes of a run of mapped addresses have a value. -/
theorem bytesValue_isSome {s : State} {a n : Nat} (h : ∀ k < n, (hostByte s (a + k)).isSome = true) :
    (bytesValue s a n).isSome = true := by
  induction n generalizing a with
  | zero => rfl
  | succ n ih =>
    have h0 := h 0 (by omega)
    have hr := ih (a := a + 1) fun k hk => by
      have := h (k + 1) (by omega)
      rwa [Nat.add_comm k 1, ← Nat.add_assoc] at this
    obtain ⟨b, hb⟩ := Option.isSome_iff_exists.1 h0
    obtain ⟨v, hv⟩ := Option.isSome_iff_exists.1 hr
    rw [Nat.add_zero] at hb
    simp [bytesValue, hb, hv]

/-- Exactly the mapped addresses have a byte (R63, R65). -/
theorem hostByte_isSome (s : State) (a : Nat) : (hostByte s a).isSome = (locAt s.lmax.val a).isSome := by
  unfold hostByte
  split <;> rename_i e <;> simp [e]

/-- A host read of a buffer address gives the buffer's byte, the one the ENGINE reads (R60, R66). -/
theorem hostByte_eq_bufferByte {s : State} {a : Nat} {l : Loc} {j : Nat} (h : locAt s.lmax.val a = some (l, j))
    (hb : l.isBuffer = true) : hostByte s a = some (bufferByte s a) := by
  unfold hostByte
  cases l <;> simp_all [Loc.isBuffer]

/-- A host read changes no state but the response shown (R72). -/
theorem busRead_eq_respond (s : State) (a : Nat) :
    busRead s a = respond s (.readDone ((hostByte s a).getD 0x00) (hostByte s a).isNone) := by
  unfold busRead
  split <;> simp_all

/-! ### The inversion lemma of step -/

/-- Everything a step that ends can do: the block is idle, a read, a write elsewhere than to CMD, a reset, an illegal
opcode, or a command run to its end. -/
theorem step_eq_next {s t : State} (h : step s = .next t) :
    (s.host = [] ∧ t = s) ∨
    (∃ a ms, s.host = .read a :: ms ∧ t = busRead (setHost s ms) a.toNat) ∨
    (∃ a v ms, s.host = .write a v :: ms ∧ a.toNat ≠ 0 ∧ t = busWrite (setHost s ms) a.toNat v) ∨
    (∃ ms, s.host = .reset :: ms ∧ t = resetBlock (setHost s ms)) ∨
    (∃ a v ms, s.host = .write a v :: ms ∧ a.toNat = 0 ∧ decode v = .illegal v ∧
      t = failWith (respond (setHost s ms) (.writeDone false)) .valIllegalCmd) ∨
    (∃ a v ms i, s.host = .write a v :: ms ∧ a.toNat = 0 ∧ decode v = .instr i ∧
      exec i (respond (setHost s ms) (.writeDone false)) = .next t) := by
  have ill : ∀ (rows : List OpcodeRow) (v w : Byte), matchRow v rows = .illegal w → w = v := by
    intro rows v w
    induction rows with
    | nil => intro e; cases e; rfl
    | cons r rows ih =>
      intro e
      unfold matchRow at e
      split at e
      · cases e
      · exact ih e
  unfold step fetch at h
  split at h <;> rename_i hf
  · split at hf
    · cases hf; cases h; exact Or.inl ⟨by assumption, rfl⟩
    · rename_i m ms hm
      cases m with
      | read a => cases hf; cases h; exact Or.inr (Or.inl ⟨a, ms, hm, rfl⟩)
      | reset => cases hf; cases h; exact Or.inr (Or.inr (Or.inr (Or.inl ⟨ms, hm, rfl⟩)))
      | write a v =>
        simp only [acceptMove] at hf
        split at hf <;> rename_i ha
        · unfold launchByte at hf
          split at hf
          · cases hf
          · rename_i w hd
            cases hf; cases h
            have hw := ill _ _ _ hd
            subst hw
            exact Or.inr (Or.inr (Or.inr (Or.inr (Or.inl ⟨a, w, ms, hm, ha, hd, rfl⟩))))
        · cases hf; cases h; exact Or.inr (Or.inr (Or.inl ⟨a, v, ms, hm, ha, rfl⟩))
  · split at hf
    · cases hf
    · rename_i m ms hm
      cases m with
      | read a => cases hf
      | reset => cases hf
      | write a v =>
        simp only [acceptMove] at hf
        split at hf <;> rename_i ha
        · unfold launchByte at hf
          split at hf
          · rename_i j hd
            cases hf
            exact Or.inr (Or.inr (Or.inr (Or.inr (Or.inr ⟨a, v, ms, _, hm, ha, hd, h⟩))))
          · cases hf
        · cases hf

end Sys2Proof.Machine
end

