-- ==== Sys2Proof/Laws/PerInstr.lean ====
section
/-!
SUPPORT. The per-instruction family Opcode: the opcode table and the encoder say the same of every command.
-/

namespace Sys2Proof.Laws.Opcode

/-- The command has a row of the table (spec/30_encoding.md R102), all eight bits of it decoded, with the command's opcode
and its mnemonic, and the opcode is not 0x00 (R104: "0x00 is deliberately illegal"). -/
def Statement (i : Instr) : Prop :=
  (∃ r ∈ opcodeTable, r.instr = i ∧ r.mask = 0xFF ∧ r.value = encode i ∧ r.mnemonic = mnemonic i) ∧ encode i ≠ 0x00

/-- The statement in a form that `decide` evaluates. -/
def holds (i : Instr) : Bool :=
  opcodeTable.any (fun r => decide (r.instr = i ∧ r.mask = 0xFF ∧ r.value = encode i ∧ r.mnemonic = mnemonic i)) &&
    decide (encode i ≠ 0x00)

theorem statement_of_holds {i : Instr} (h : holds i = true) : Statement i := by
  simp only [holds, Bool.and_eq_true, List.any_eq_true, decide_eq_true_eq] at h
  exact h

theorem gfadd : Statement .gfadd := statement_of_holds (by decide)
theorem gfsub : Statement .gfsub := statement_of_holds (by decide)
theorem gfxtime : Statement .gfxtime := statement_of_holds (by decide)
theorem gfmul : Statement .gfmul := statement_of_holds (by decide)
theorem gfpow : Statement .gfpow := statement_of_holds (by decide)
theorem gfinv : Statement .gfinv := statement_of_holds (by decide)
theorem gfdiv : Statement .gfdiv := statement_of_holds (by decide)
theorem peval : Statement .peval := statement_of_holds (by decide)
theorem xdistinct : Statement .xdistinct := statement_of_holds (by decide)
theorem lbasis : Statement .lbasis := statement_of_holds (by decide)
theorem linterp : Statement .linterp := statement_of_holds (by decide)
theorem linterp0 : Statement .linterp0 := statement_of_holds (by decide)
theorem pbuild : Statement .pbuild := statement_of_holds (by decide)
theorem split : Statement .split := statement_of_holds (by decide)
theorem combine : Statement .combine := statement_of_holds (by decide)

end Sys2Proof.Laws.Opcode
end

