-- ==== Sys2Proof/Tests/Slice0.lean ====
section
/-!
SUPPORT. The model's own tests. Expected values come from spec/ (the file and section stand at each group), never from the
model. A theorem named witness_<statement> shows a concrete state and operands that meet the hypotheses of that statement
together, and, where the spec gives the values, what comes out.
-/

namespace Sys2Proof.Tests

open Sys2Proof.Machine Sys2Proof.Spec

/-! The tests are elaborated one at a time: all at once they take more threads than the sandbox gives. -/

set_option Elab.async false

/-! ### Helpers -/

/-- The state a command leaves, and the state it started in where it does not end in a next state. -/
def after (i : Instr) (s : State) : State :=
  match exec i s with
  | .next t => t
  | _ => s

/-- The state a step leaves, and the state it started in where it does not end in a next state. -/
def afterStep (s : State) : State :=
  match step s with
  | .next t => t
  | _ => s

/-- STATUS and ERRCODE after a command. -/
def ending (i : Instr) (s : State) : Byte × Byte := ((after i s).status, (after i s).errcode)

/-- RES, STATUS and ERRCODE after a command launched with RES = 0xEE. -/
def result (i : Instr) (s : State) : Byte × Byte × Byte :=
  let t := after i { s with res := 0xEE }
  (t.res, t.status, t.errcode)

/-- After reset, with OPA, OPB and EXP set. -/
def ops (a b : Byte) (e : BitVec 32) : State := { State.reset with opa := a, opb := b, exp := e }

/-- After reset, with XS and YS written, XCNT and YCNT their lengths, and OPA and OPB set. -/
def points (xs ys : List Byte) (a b : Byte) : State :=
  { State.reset with
    mem := memInsertList (memInsertList [] 0x0200 xs) 0x0300 ys, xcnt := BitVec.ofNat 8 xs.length,
    ycnt := BitVec.ofNat 8 ys.length, opa := a, opb := b }

/-- After reset, with a polynomial in COEF, its degree in DEG, and OPA set. -/
def poly (c : List Byte) (d a : Byte) : State :=
  { State.reset with mem := memInsertList [] 0x0100 c, deg := d, opa := a }

/-- After reset, with a secret in SEC and SLEN, T and N set, default x-values, and the source's next answers. -/
def dealer (secret : List Byte) (t n : Byte) (rng : List RngAnswer) : State :=
  { State.reset with
    mem := memInsertList [] 0x00010000 secret, slen := BitVec.ofNat 16 secret.length, t := t, n := n, rng := rng }

/-- The same with explicit x-values in XS. -/
def dealerXs (secret : List Byte) (t n : Byte) (xs : List Byte) (rng : List RngAnswer) : State :=
  let s := dealer secret t n rng
  { s with mem := memInsertList s.mem 0x0200 xs, ctrl := 0x01, xcnt := BitVec.ofNat 8 xs.length }

/-- After reset, with two shares of index, length and bytes in slots 0 and 1, and SCNT = 2. -/
def twoShares (x0 : Byte) (l0 : Half) (b0 : List Byte) (x1 : Byte) (l1 : Half) (b1 : List Byte) : State :=
  { State.reset with mem := writeSlot (writeSlot [] 0 x0 l0 b0) 1 x1 l1 b1, scnt := 2 }

/-! ### Decoding: one word per command, bit by bit from spec/30_encoding.md R102 -/

theorem test_decode_gfadd : decode 0b00000001 = .instr .gfadd := by decide +kernel
theorem test_decode_gfsub : decode 0b00000010 = .instr .gfsub := by decide +kernel
theorem test_decode_gfxtime : decode 0b00000011 = .instr .gfxtime := by decide +kernel
theorem test_decode_gfmul : decode 0b00000100 = .instr .gfmul := by decide +kernel
theorem test_decode_gfpow : decode 0b00000101 = .instr .gfpow := by decide +kernel
theorem test_decode_gfinv : decode 0b00000110 = .instr .gfinv := by decide +kernel
theorem test_decode_gfdiv : decode 0b00000111 = .instr .gfdiv := by decide +kernel
theorem test_decode_peval : decode 0b00010000 = .instr .peval := by decide +kernel
theorem test_decode_xdistinct : decode 0b00010001 = .instr .xdistinct := by decide +kernel
theorem test_decode_lbasis : decode 0b00010010 = .instr .lbasis := by decide +kernel
theorem test_decode_linterp : decode 0b00010011 = .instr .linterp := by decide +kernel
theorem test_decode_linterp0 : decode 0b00010100 = .instr .linterp0 := by decide +kernel
theorem test_decode_pbuild : decode 0b00010101 = .instr .pbuild := by decide +kernel
theorem test_decode_split : decode 0b00100000 = .instr .split := by decide +kernel
theorem test_decode_combine : decode 0b00100001 = .instr .combine := by decide +kernel

/-- No byte matches two rows of the table. -/
theorem test_no_overlap :
    opcodeTable.Pairwise (fun r q => (r.value &&& r.mask &&& q.mask) ≠ (q.value &&& r.mask &&& q.mask)) := by decide +kernel

/-- spec/95_test_vectors.md section 5: the illegal opcodes tried there. -/
theorem test_illegal_opcodes :
    [0x00, 0x08, 0x0F, 0x16, 0x1F, 0x22, 0x80, 0xFF].all (fun b => decide (decode b = .illegal b)) = true := by decide +kernel

/-! ### WellFormed: an ill-formed term for each check -/

theorem test_wf_refuses_coef : Loc.wf 256 (.coef 256) = false := by decide +kernel
theorem test_wf_refuses_xs : Loc.wf 256 (.xs 255) = false := by decide +kernel
theorem test_wf_refuses_ys : Loc.wf 256 (.ys 255) = false := by decide +kernel
theorem test_wf_refuses_shIdx : Loc.wf 256 (.shIdx 255) = false := by decide +kernel
theorem test_wf_refuses_shLen : Loc.wf 256 (.shLen 255) = false := by decide +kernel
theorem test_wf_refuses_sec : Loc.wf 256 (.sec 256) = false := by decide +kernel
theorem test_wf_refuses_shData_slot : Loc.wf 256 (.shData 255 0) = false := by decide +kernel
theorem test_wf_refuses_shData_byte : Loc.wf 256 (.shData 0 256) = false := by decide +kernel
theorem test_wf_refuses_value : Stmt.wf 256 (.wr .opa 256) = false := by decide +kernel
theorem test_wf_refuses_value16 : Stmt.wf 256 (.wr .slen 65536) = false := by decide +kernel
theorem test_wf_refuses_read : Stmt.wf 256 (.rd (.xs 255)) = false := by decide +kernel

/-- SEC's capacity is LMAX, whatever it is (spec/10_state.md R38): its last element and the first beyond. -/
theorem test_wf_lmax : Loc.wf 65535 (.sec 65534) = true ∧ Loc.wf 65535 (.sec 65535) = false := by decide +kernel

/-! ### Statements of the host script: spec/30_encoding.md R106 -/

theorem test_encode_wr_slen :
    (Stmt.wr .slen 0x0102).encode = [.write 0x00000012 0x02, .write 0x00000013 0x01] := by decide +kernel
theorem test_encode_gfmul : (Stmt.command .gfmul).encode = [.write 0x00000000 0x04] := by decide +kernel

/-! ### The Field commands: spec/95_test_vectors.md section 2 -/

theorem test_gfadd : result .gfadd (ops 0x57 0x83 0) = (0xD4, 0x80, 0x00) := by decide +kernel
theorem test_gfadd_no_carry : result .gfadd (ops 0xFF 0xFF 0) = (0x00, 0x80, 0x00) := by decide +kernel
theorem test_gfsub : result .gfsub (ops 0x00 0xA5 0) = (0xA5, 0x80, 0x00) := by decide +kernel
theorem test_gfxtime_reduces : result .gfxtime (ops 0xAE 0 0) = (0x47, 0x80, 0x00) := by decide +kernel
theorem test_gfxtime_largest_unreduced : result .gfxtime (ops 0x7F 0 0) = (0xFE, 0x80, 0x00) := by decide +kernel
theorem test_gfmul : result .gfmul (ops 0x57 0x13 0) = (0xFE, 0x80, 0x00) := by decide +kernel
theorem test_gfmul_top : result .gfmul (ops 0x3C 0xFF 0) = (0xD3, 0x80, 0x00) := by decide +kernel
theorem test_gfpow_zero_zero : result .gfpow (ops 0x00 0 0) = (0x01, 0x80, 0x00) := by decide +kernel
theorem test_gfpow_top_bit : result .gfpow (ops 0x02 0 0x80000000) = (0xFA, 0x80, 0x00) := by decide +kernel
theorem test_gfinv : result .gfinv (ops 0x53 0 0) = (0xCA, 0x80, 0x00) := by decide +kernel
theorem test_gfinv_zero : result .gfinv (ops 0x00 0 0) = (0xEE, 0x81, 0x10) := by decide +kernel
theorem test_gfdiv : result .gfdiv (ops 0xC1 0x83 0) = (0x57, 0x80, 0x00) := by decide +kernel
theorem test_gfdiv_zero_zero : result .gfdiv (ops 0x00 0x00 0) = (0xEE, 0x81, 0x11) := by decide +kernel

/-! ### The Polynomial commands: spec/95_test_vectors.md section 3 -/

theorem test_peval : result .peval (poly [0xAB, 0x11, 0x22, 0x33] 0x03 0xFF) = (0x4B, 0x80, 0x00) := by decide +kernel
theorem test_peval_ignores_above_deg :
    result .peval (poly [0xAB, 0x11, 0x22, 0x33] 0x01 0x03) = (0x98, 0x80, 0x00) := by decide +kernel
theorem test_xdistinct_zero_is_legal : result .xdistinct (points [0, 1] [] 0 0) = (0xEE, 0x80, 0x00) := by decide +kernel
theorem test_xdistinct_duplicate : result .xdistinct (points [1, 2, 1] [] 0 0) = (0xEE, 0x82, 0x27) := by decide +kernel
theorem test_lbasis : result .lbasis (points [1, 3, 5, 7] [] 0x02 0x02) = (0xBF, 0x80, 0x00) := by decide +kernel
theorem test_lbasis_other_duplicate : result .lbasis (points [1, 2, 2] [] 0x00 0x00) = (0x53, 0x80, 0x00) := by decide +kernel
theorem test_linterp : result .linterp (points [1, 3, 5, 7] [0xAB, 0x28, 0x5C, 0xF8] 0xFF 0) = (0x4B, 0x80, 0x00) := by
  decide +kernel
theorem test_linterp_mismatch_before_duplicate :
    result .linterp (points [5, 5] [1, 2, 3] 0 0) = (0xEE, 0x82, 0x2E) := by decide +kernel
theorem test_linterp0 : result .linterp0 (points [1, 2] [0x0A, 0x0B] 0x77 0) = (0xFC, 0x80, 0x00) := by decide +kernel
theorem test_linterp0_zero_x : result .linterp0 (points [0, 1] [0x77, 0x12] 0 0) = (0x77, 0x80, 0x00) := by decide +kernel
theorem test_pbuild_surplus :
    (List.range 4).map (elemByte (after .pbuild { poly [9, 9, 9, 9] 0x02 0x2A with rng := [.bytes [0x07, 0xC0, 0x99]] }) ∘ .coef) =
      [0x2A, 0x07, 0xC0, 9] := by decide +kernel
theorem test_pbuild_short :
    ending .pbuild { poly [9, 9, 9, 9] 0x02 0x2A with rng := [.bytes [0x07]] } = (0x82, 0x2D) := by decide +kernel

/-! ### The Sequencer commands: spec/95_test_vectors.md section 4 -/

/-- Another instance, with LMAX = 1: a secret of two bytes is out of range (spec/42_split_combine.md R181). -/
theorem test_split_lmax :
    ending .split { dealer [0x42, 0xA5] 1 1 [] with lmax := 1 } = (0x82, 0x24) ∧
      ending .split { dealer [0x42] 1 1 [] with lmax := 1 } = (0x80, 0x00) := by decide +kernel

/-- Section 4.1. -/
theorem test_split :
    let t := after .split (dealer [0x42, 0xA5] 2 3 [.bytes [0x07], .bytes [0xC3]])
    (t.status, (List.range 3).map (elemByte t ∘ .shIdx), (List.range 3).map (shareLen t), shareColumn t 3 0, shareColumn t 3 1) =
      (0x80, [1, 2, 3], [2, 2, 2], [0x45, 0x4C, 0x4B], [0x66, 0x38, 0xFB]) := by decide +kernel

/-- Section 4.4: T = N = 3, unordered explicit x-values. -/
theorem test_split_explicit_xs :
    let t := after .split (dealerXs [0x00] 3 3 [0xFF, 0x01, 0x80] [.bytes [0xFF, 0x01]])
    (t.status, (List.range 3).map (elemByte t ∘ .shIdx), shareColumn t 3 0) =
      (0x80, [0xFF, 0x01, 0x80], [0x00, 0xFE, 0xFF]) := by decide +kernel

/-- Section 4.1: indices 1 and 3. -/
theorem test_combine :
    let t := after .combine (twoShares 1 2 [0x45, 0x66] 3 2 [0x4B, 0xFB])
    (t.status, t.slen, elemByte t (.sec 0), elemByte t (.sec 1)) = (0x80, 2, 0x42, 0xA5) := by decide +kernel

/-- Section 7, P4: two shares with index 5; SLEN keeps its value. -/
theorem test_combine_duplicate_index :
    let t := after .combine { twoShares 5 2 [1, 2] 5 2 [3, 4] with slen := 1 }
    (t.status, t.errcode, t.slen) = (0x82, 0x2A, 1) := by decide +kernel

/-! ### The host port: spec/95_test_vectors.md section 6 -/

theorem test_ctrl_keeps_bit_zero :
    (afterStep { State.reset with host := [.write 0x07 0xFF] }).ctrl = 0x01 := by decide +kernel
theorem test_slen_little_endian :
    (afterStep (afterStep { State.reset with host := [.write 0x12 0x02, .write 0x13 0x01] })).slen = 0x0102 := by decide +kernel
theorem test_shData_address :
    elemByte (afterStep { State.reset with host := [.write 0x01010003 0x77] }) (.shData 1 3) = 0x77 := by decide +kernel
theorem test_read_unmapped :
    (afterStep { State.reset with host := [.read 0x11] }).resp = some (.readDone 0x00 true) := by decide +kernel
theorem test_first_command_after_reset :
    let t := afterStep (State.reset.withFetchWord 8 0x06)
    (t.status, t.errcode, t.res, t.resp) = (0x81, 0x10, 0x00, some (.writeDone false)) := by decide +kernel

/-! ### Witnesses: the hypotheses of the statements are met -/

theorem witness_IllegalOpcodeRaises :
    ({ State.reset with host := [.write 0x00000000 0x22] } : State).host = .write 0x00000000 0x22 :: [] ∧
      decode 0x22 = .illegal 0x22 ∧
      ending .gfadd State.reset = (0x80, 0x00) ∧
      (afterStep { State.reset with host := [.write 0x00000000 0x22] }).errcode = 0x01 := by decide +kernel

theorem witness_DecodeEncodeAgree : decode 0x21 = .instr .combine ∧ encode .combine = 0x21 := by decide +kernel

theorem witness_AddressMapRoundTrip :
    [Loc.coef 255, .xs 254, .ys 254, .shIdx 254, .shLen 254, .sec 255, .shData 254 255, .exp, .slen, .scnt].all
      (fun l => l.wf 256 && decide (locAt 256 (l.addr + (l.width - 1)) = some (l, l.width - 1))) = true := by decide +kernel

theorem witness_UnmappedAddressesAreListed :
    [0x11, 0x14, 0xFF, 0x2FF, 0x3FF, 0x4FF, 0x5FF, 0x7FE, 0xFFFF, 0x10100, 0xFFFFFF, 0x1000100, 0x1FEFFFF, 0x1FF0000,
      0xFFFFFFFF].all (fun a => decide (locAt 256 a = none)) = true ∧
    [0x10, 0x12, 0x13, 0x100, 0x2FE, 0x300, 0x4FE, 0x600, 0x7FD, 0x10000, 0x100FF, 0x1000000, 0x1FE00FF].all
      (fun a => decide (locAt 256 a ≠ none)) = true := by decide +kernel

theorem witness_StatementTransactionsRoundTrip :
    Stmt.wf 256 (.wr .exp 0xFFFFFFFF) = true ∧ Stmt.wf 256 (.wr (.shLen 254) 0xFFFF) = true ∧ Stmt.wf 256 (.rd (.sec 255)) = true := by
  decide +kernel

theorem witness_StepRunsDecodedCommand :
    (State.reset.withFetchWord 8 0x01).host = .write 0x00000000 0x01 :: [] ∧ decode 0x01 = .instr .gfadd := by decide +kernel

theorem witness_IdleBlockHoldsState : State.reset.host = [] := rfl

theorem witness_HostReadHasNoSideEffect :
    hostByte { State.reset with host := [.read 0x04], opa := 0x5A } (0x04 : Addr).toNat = some 0x5A ∧
      locAt 256 (0xFFFFFFFF : Addr).toNat = none := by decide +kernel

theorem witness_HostWriteThenRead :
    (locAt 256 (0x0B : Addr).toNat = some (.exp, 3) ∧ storesWhole .exp = true) ∧
      locAt 256 (0x07 : Addr).toNat = some (.ctrl, 0) ∧ locAt 256 (0x03 : Addr).toNat = some (.res, 0) ∧
      hostByte (afterStep { State.reset with host := [.write 0x0B 0xFE] }) 0x0B = some 0xFE ∧
      hostByte (afterStep { State.reset with host := [.write 0x03 0x55] }) 0x03 = some 0x00 := by decide +kernel

theorem witness_UnmappedWriteChangesNothing :
    locAt 256 (0x02FF : Addr).toNat = none ∧
      (afterStep { State.reset with host := [.write 0x02FF 0x01] }).resp = some (.writeDone true) := by decide +kernel

theorem witness_EngineReadsWhatHostWrote :
    Loc.wf 256 (.shData 254 255) = true ∧ Loc.isBuffer (.shData 254 255) = true ∧ Loc.width (.shData 254 255) = 1 ∧
      elemByte (afterStep { State.reset with host := [.write (BitVec.ofNat 32 (Loc.addr (.shData 254 255))) 0x77] })
        (.shData 254 255) = 0x77 := by decide +kernel

/-- A whole location, a part of one, and two runs of mapped addresses that belong to two locations. -/
theorem witness_MemReadIsLittleEndianSum :
    memRead (ops 0 0 0x04030201) 0x08 4 = some 0x04030201 ∧ memRead (ops 0 0 0x04030201) 0x09 2 = some 0x0302 ∧
      memRead (ops 1 2 0) 0x04 2 = none ∧ memRead State.reset 0x0601 2 = none ∧
      memRead (ops 0 0 0x04030201) 0x08 3 = none ∧ memWrite State.reset 0x04 2 0x0201 = none := by decide +kernel

theorem witness_MemWriteThenMemRead :
    Loc.wf 256 (.shLen 254) = true ∧ storesWhole (.shLen 254) = true ∧ 0 + 2 ≤ Loc.width (.shLen 254) ∧ 0xFFFF < 256 ^ 2 ∧
      storesWhole .exp = true ∧ 2 + 2 ≤ Loc.width .exp ∧ 0 + 4 ≤ Loc.width .exp := by decide +kernel

theorem witness_ResetLeavesReset :
    AfterReset State.reset 0 ∧
    ({ ops 0x53 0xCA 254 with host := [.reset, .read 0x04] } : State).host = .reset :: [.read 0x04] ∧
      (afterStep { ops 0x53 0xCA 254 with host := [.reset, .read 0x04] }).opa = 0x00 := by
  refine ⟨?_, by decide +kernel⟩
  simp [AfterReset, State.reset, bufferByte, memLookup, unlistedByte]

theorem witness_StepKeepsInvariant :
    ∃ t, ({ poly [1, 2] 1 0x2A with host := [.write 0 0x06], status := 0x82, errcode := 0x27, res := 7 } : State).Inv ∧
      step { poly [1, 2] 1 0x2A with host := [.write 0 0x06], status := 0x82, errcode := 0x27, res := 7 } = .next t := by
  refine ⟨_, ⟨?_, ?_, ?_, ?_, ?_⟩, rfl⟩
  · unfold LmaxInv; decide +kernel
  · unfold StatusInv; decide +kernel
  · unfold CtrlInv; decide +kernel
  · unfold MemInv; decide +kernel
  · unfold RngInv; decide +kernel

theorem witness_StepKeepsParameter :
    ∃ t, step { State.reset with lmax := 1, host := [.reset] } = .next t ∧ t.lmax = 1 := ⟨_, rfl, rfl⟩

theorem witness_StepGoesOnUnlessSourceSilent :
    ∀ j < max 1 ({ State.reset with rng := [.bytes []] } : State).slen.toNat, ∀ len,
      rngAnswerAt { State.reset with rng := [.bytes []] } j len ≠ .never := by
  intro j hj len
  have : j = 0 := by simpa [State.reset] using hj
  subst this
  simp [rngAnswerAt]

theorem witness_ErrorChangesStatusAlone : ∃ t, exec .gfinv State.reset = .next t ∧ t.errcode ≠ 0x00 :=
  ⟨_, rfl, by decide⟩

/-- Every command ends in a next state somewhere. -/
theorem witness_SuccessAndErrorStatus : ∀ i, ∃ s t, exec i s = .next t := by
  intro i
  cases i
  case pbuild => exact ⟨State.reset, _, rfl⟩
  case peval => exact ⟨State.reset, _, rfl⟩
  all_goals exact ⟨State.reset, _, rfl⟩

theorem witness_ErrorsOfEachCommand :
    (∃ t, exec .lbasis State.reset = .next t ∧ t.errcode = 0x31) ∧
      ({ State.reset with host := [.write 0x00000000 0xFF] } : State).host = .write 0x00000000 0xFF :: [] ∧
      decode 0xFF = .illegal 0xFF ∧ 0x31 ∈ possibleCodes .lbasis :=
  ⟨⟨_, rfl, by decide⟩, rfl, by decide, by decide⟩

theorem witness_OperandsNeverWrittenByEngine : ∀ i, ∃ s t, exec i s = .next t := witness_SuccessAndErrorStatus

/-- A command that writes buffer elements, one that writes SLEN and one that writes RES: the elements beside the written ones
keep their bytes. -/
theorem witness_WritesOfEachCommand :
    elemByte (after .pbuild (poly [9, 8] 0x00 0x2A)) (.coef 1) = 8 ∧
      elemByte (after .combine { twoShares 1 1 [0x45] 3 1 [0x4B] with slen := 7 }) (.shData 1 0) = 0x4B ∧
      (after .combine { twoShares 1 1 [0x45] 3 1 [0x4B] with slen := 7 }).slen = 1 ∧
      (after .split { dealer [0x42] 1 1 [] with res := 7 }).res = 7 := by decide +kernel

theorem witness_ResultDependsOnReadsAlone : ∀ i, AgreeOnReads i State.reset { State.reset with res := 0x55 } := by
  intro i
  cases i <;> simp [AgreeOnReads, rngAnswerAt, elemByte, bufferByte, shareLen]

theorem witness_FieldAxioms : (0x02 : Byte) ≠ 0 ∧ gfInv 0x02 = some 0x8D ∧ gfMul 0x02 0x8D = 1 := by decide +kernel

theorem witness_InverseAndQuotient : (0x53 : Byte) ≠ 0 ∧ gfInv 0x53 = some 0xCA ∧ gfDiv 0x01 0x53 = some 0xCA := by decide +kernel

theorem witness_GfpowIsIteratedProduct :
    (1 : BitVec Config.expW) ≠ 0 ∧ (0x03 : Byte) ≠ 0 ∧ gfPow 0x03 256 = 0x03 := by decide +kernel

theorem witness_GfxtimeResult :
    (ops 0x80 0 0).opa.getLsbD 7 = true ∧ (ops 0x7F 0 0).opa.getLsbD 7 = false ∧
      result .gfxtime (ops 0x80 0 0) = (0x1B, 0x80, 0x00) := by decide +kernel

theorem witness_GfmulResult :
    (ops 0x57 0x00 0).opb = 0 ∧ (ops 0x57 0x01 0).opb = 0x01 ∧ (ops 0x57 0x02 0).opb = 0x02 := by decide +kernel

theorem witness_GfinvResult : (ops 0xFF 0 0).opa ≠ 0 ∧ (ops 0x00 0 0).opa = 0 := by decide +kernel

theorem witness_GfdivResult : (ops 0x00 0x07 0).opb ≠ 0 ∧ (ops 0x57 0x00 0).opb = 0 := by decide +kernel

theorem witness_XdistinctResult :
    Distinct (xs (points [1, 3, 5, 7] [] 0 0)) (points [1, 3, 5, 7] [] 0 0).xcnt.toNat ∧
      ¬ Distinct (xs (points [4, 4] [] 0 0)) (points [4, 4] [] 0 0).xcnt.toNat := by
  unfold Distinct; decide +kernel

theorem witness_LbasisResult :
    ((points [1, 2, 1] [] 0 3).xcnt.toNat ≤ (points [1, 2, 1] [] 0 3).opb.toNat ∧
      ending .lbasis (points [1, 2, 1] [] 0 3) = (0x82, 0x31)) ∧
    ((points [1, 2, 1] [] 0 2).opb.toNat < (points [1, 2, 1] [] 0 2).xcnt.toNat ∧
      (∃ j < 3, j ≠ 2 ∧ xs (points [1, 2, 1] [] 0 2) 2 = xs (points [1, 2, 1] [] 0 2) j) ∧
      ending .lbasis (points [1, 2, 1] [] 0 2) = (0x83, 0x30)) ∧
    ((∀ j < 3, j ≠ 1 → xs (points [1, 2, 1] [] 0 1) 1 ≠ xs (points [1, 2, 1] [] 0 1) j) ∧
      result .lbasis (points [1, 2, 1] [] 0 1) = (0x52, 0x80, 0x00)) := by decide +kernel

theorem witness_LinterpResult :
    ((points [1, 2, 3] [1, 2] 0 0).xcnt ≠ (points [1, 2, 3] [1, 2] 0 0).ycnt) ∧
    ((points [] [] 0 0).xcnt = (points [] [] 0 0).ycnt ∧ (points [] [] 0 0).xcnt = 0 ∧
      ending .linterp (points [] [] 0 0) = (0x82, 0x2F) ∧ ending .linterp0 (points [] [] 0 0) = (0x82, 0x2F)) ∧
    ((points [1, 2, 1] [1, 2, 3] 0 0).xcnt = (points [1, 2, 1] [1, 2, 3] 0 0).ycnt ∧
      ¬ Distinct (xs (points [1, 2, 1] [1, 2, 3] 0 0)) 3 ∧
      ending .linterp (points [1, 2, 1] [1, 2, 3] 0 0) = (0x82, 0x27)) ∧
    ((points [9] [0x3E] 0 0).xcnt = (points [9] [0x3E] 0 0).ycnt ∧ (points [9] [0x3E] 0 0).xcnt ≠ 0 ∧
      Distinct (xs (points [9] [0x3E] 0 0)) 1 ∧ result .linterp (points [9] [0x3E] 0xC4 0) = (0x3E, 0x80, 0x00)) := by
  unfold Distinct; decide +kernel

theorem witness_Linterp0Result :
    ((points [5, 5] [1, 2, 3] 0 0).xcnt ≠ (points [5, 5] [1, 2, 3] 0 0).ycnt ∧
      ending .linterp0 (points [5, 5] [1, 2, 3] 0 0) = (0x82, 0x2E)) ∧
    ((points [] [] 0 0).xcnt = (points [] [] 0 0).ycnt ∧ (points [] [] 0 0).xcnt = 0) ∧
    (¬ Distinct (xs (points [1, 2, 1] [1, 2, 3] 0 0)) 3 ∧
      ending .linterp0 (points [1, 2, 1] [1, 2, 3] 0 0) = (0x82, 0x27)) ∧
    ((points [1, 2] [0x0A, 0x0B] 0 0).xcnt = (points [1, 2] [0x0A, 0x0B] 0 0).ycnt ∧
      (points [1, 2] [0x0A, 0x0B] 0 0).xcnt ≠ 0 ∧ Distinct (xs (points [1, 2] [0x0A, 0x0B] 0 0)) 2) := by
  unfold Distinct; decide +kernel

theorem witness_InterpolationAtZeroAgrees : (points [1, 2] [3, 4] 0x00 0).opa = 0x00 := rfl

theorem witness_LagrangeProperties :
    ([1, 3, 5, 7] : List Byte).Nodup ∧ ([0xAB, 0x11, 0x22, 0x33] : List Byte).length ≤ ([1, 3, 5, 7] : List Byte).length ∧
      ([1, 3, 5, 7] : List Byte).map (horner [0xAB, 0x11, 0x22, 0x33]) = [0xAB, 0x28, 0x5C, 0xF8] := by decide +kernel

theorem witness_PbuildResult :
    ((poly [] 0x00 0x2A).deg = 0 ∧ ending .pbuild (poly [] 0x00 0x2A) = (0x80, 0x00)) ∧
    (rngAnswerAt { poly [] 0x02 0x2A with rng := [.bytes [7, 0xC0]] } 0 2 = .bytes [7, 0xC0] ∧ 2 ≤ [7, 0xC0].length) ∧
    (rngAnswerAt { poly [] 0x02 0x2A with rng := [.bytes []] } 0 2 = .bytes [] ∧
      ending .pbuild { poly [] 0x02 0x2A with rng := [.bytes []] } = (0x82, 0x2D)) := by decide +kernel

theorem witness_RngDrawTakesFirstBytes :
    rngAnswerAt { State.reset with rng := [.bytes [7, 0xC0, 0x99]] } 0 2 = .bytes [7, 0xC0, 0x99] := by decide +kernel

/-- A source that answers with zeros alone is used like any other: every share byte is the secret's. -/
theorem witness_AnyRandomBytesAreUsed :
    ((poly [9, 9, 9] 0x02 0x2A).deg ≠ 0 ∧
      (List.range 3).map (elemByte (after .pbuild { poly [9, 9, 9] 0x02 0x2A with rng := [.bytes [0, 0]] }) ∘ .coef) =
        [0x2A, 0, 0]) ∧
    (SplitOk (dealer [0x42] 3 3 []) ∧ [[0x00, 0x00]].length = (dealer [0x42] 3 3 []).slen.toNat ∧
      shareColumn (after .split (dealer [0x42] 3 3 [.bytes [0, 0]])) 3 0 = [0x42, 0x42, 0x42]) := by
  unfold SplitOk LengthOk CountsOk XsOk Distinct; decide +kernel

theorem witness_UnansweredRequestStops :
    ((poly [] 0xFF 0x2A).deg ≠ 0 ∧ rngAnswerAt { poly [] 0xFF 0x2A with rng := [.never] } 0 255 = .never) ∧
    (SplitOk (dealer [0x42, 0xA5] 2 2 [.bytes [7], .never]) ∧
      RngSupplies (dealer [0x42, 0xA5] 2 2 [.bytes [7], .never]) 1 1 (fun _ => [7]) ∧
      rngAnswerAt (dealer [0x42, 0xA5] 2 2 [.bytes [7], .never]) 1 1 = .never) := by
  unfold SplitOk LengthOk CountsOk XsOk RngSupplies Distinct; decide +kernel

/-- spec/95_test_vectors.md section 5: one SPLIT for each error, in the order of the checks. -/
theorem witness_SplitChecksInOrder :
    ending .split (dealer [] 0 0 []) = (0x82, 0x23) ∧
    ending .split { dealer [1] 2 3 [] with slen := 0x0101 } = (0x82, 0x24) ∧
    (LengthOk (dealer [1] 0 0 []) ∧ ending .split (dealer [1] 0 0 []) = (0x82, 0x20)) ∧
    (LengthOk (dealer [1] 1 0 []) ∧ ending .split (dealer [1] 1 0 []) = (0x82, 0x21)) ∧
    (LengthOk (dealer [1] 3 2 []) ∧ ending .split (dealer [1] 3 2 []) = (0x82, 0x22)) ∧
    (CountsOk (dealerXs [1] 2 2 [1] []) ∧ ending .split (dealerXs [1] 2 2 [1] []) = (0x82, 0x25)) ∧
    (CountsOk (dealerXs [1] 2 2 [0, 0] []) ∧ (∃ j < 2, xs (dealerXs [1] 2 2 [0, 0] []) j = 0) ∧
      ending .split (dealerXs [1] 2 2 [0, 0] []) = (0x82, 0x26)) ∧
    (CountsOk (dealerXs [1] 2 2 [4, 4] []) ∧ (∀ j < 2, xs (dealerXs [1] 2 2 [4, 4] []) j ≠ 0) ∧
      ¬ Distinct (xs (dealerXs [1] 2 2 [4, 4] [])) 2 ∧ ending .split (dealerXs [1] 2 2 [4, 4] []) = (0x82, 0x27)) := by
  unfold LengthOk CountsOk Distinct; decide +kernel

/-- spec/95_test_vectors.md section 4.1: the default x-values, two positions. -/
theorem witness_SplitResult :
    SplitOk (dealer [0x42, 0xA5] 2 3 [.bytes [7], .bytes [0xC3]]) ∧
      RngSupplies (dealer [0x42, 0xA5] 2 3 [.bytes [7], .bytes [0xC3]]) 2 1 (fun j => if j = 0 then [7] else [0xC3]) := by
  unfold SplitOk LengthOk CountsOk XsOk RngSupplies Distinct; decide +kernel

/-- spec/95_test_vectors.md section 4.2: explicit x-values at the extremes. -/
theorem witness_SplitResult_explicit : SplitOk (dealerXs [0x5A] 2 2 [0x01, 0xFF] [.bytes [0x3C]]) := by
  unfold SplitOk LengthOk CountsOk XsOk Distinct; decide +kernel

/-- The largest lengths and counts: SLEN = LMAX, T = N = 255. -/
def largestDealer : State := { dealer [0x99] 255 255 [] with slen := 0x0100 }

theorem witness_SplitResult_largest : SplitOk largestDealer := by
  unfold SplitOk LengthOk CountsOk XsOk Distinct; decide +kernel

/-- spec/95_test_vectors.md section 4.6. -/
theorem witness_SplitShortAnswer :
    SplitOk (dealer [0x42, 0xA5] 3 3 [.bytes [1, 2], .bytes [3]]) ∧
      RngSupplies (dealer [0x42, 0xA5] 3 3 [.bytes [1, 2], .bytes [3]]) 1 2 (fun _ => [1, 2]) ∧
      rngAnswerAt (dealer [0x42, 0xA5] 3 3 [.bytes [1, 2], .bytes [3]]) 1 2 = .bytes [3] ∧
      ending .split (dealer [0x42, 0xA5] 3 3 [.bytes [1, 2], .bytes [3]]) = (0x82, 0x2D) ∧
      (after .split (dealer [0x42, 0xA5] 3 3 [.bytes [1, 2], .bytes [3]])).rngLog = [⟨2, 1⟩, ⟨2, 2⟩] := by
  unfold SplitOk LengthOk CountsOk XsOk RngSupplies Distinct; decide +kernel

/-- spec/95_test_vectors.md section 4.3. -/
theorem witness_SplitThresholdOneCopiesSecret :
    SplitOk (dealer [0xDE, 0xAD] 1 3 []) ∧ (dealer [0xDE, 0xAD] 1 3 []).t = 1 ∧
      shareColumn (after .split (dealer [0xDE, 0xAD] 1 3 [])) 3 1 = [0xAD, 0xAD, 0xAD] := by
  unfold SplitOk LengthOk CountsOk XsOk Distinct; decide +kernel

/-- spec/95_test_vectors.md section 5: one COMBINE for each error, in the order of the checks. -/
theorem witness_CombineChecksInOrder :
    ending .combine State.reset = (0x82, 0x28) ∧
    ((∃ j < 2, shIdx (twoShares 0 2 [] 0 1 []) j = 0) ∧ ending .combine (twoShares 0 2 [] 0 1 []) = (0x82, 0x29)) ∧
    ((∀ j < 2, shIdx (twoShares 5 2 [] 5 1 []) j ≠ 0) ∧ ¬ Distinct (shIdx (twoShares 5 2 [] 5 1 [])) 2 ∧
      ending .combine (twoShares 5 2 [] 5 1 []) = (0x82, 0x2A)) ∧
    (Distinct (shIdx (twoShares 1 2 [] 2 1 [])) 2 ∧
      (∃ j < 2, shareLen (twoShares 1 2 [] 2 1 []) j ≠ shareLen (twoShares 1 2 [] 2 1 []) 0) ∧
      ending .combine (twoShares 1 2 [] 2 1 []) = (0x82, 0x2B)) ∧
    ((∀ j < 2, shareLen (twoShares 1 0 [] 2 0 []) j = shareLen (twoShares 1 0 [] 2 0 []) 0) ∧
      shareLen (twoShares 1 0 [] 2 0 []) 0 = 0 ∧ ending .combine (twoShares 1 0 [] 2 0 []) = (0x82, 0x2C)) ∧
    ((twoShares 1 0x0101 [] 2 0x0101 []).lmax.val < (shareLen (twoShares 1 0x0101 [] 2 0x0101 []) 0).toNat ∧
      ending .combine (twoShares 1 0x0101 [] 2 0x0101 []) = (0x82, 0x24)) := by
  unfold Distinct; decide +kernel

theorem witness_CombineResult :
    CombineOk (twoShares 1 2 [0x45, 0x66] 3 2 [0x4B, 0xFB]) ∧ CombineOk (twoShares 0xFF 0x0100 [] 1 0x0100 []) := by
  unfold CombineOk Distinct; decide +kernel

theorem witness_CombineOfOneShareCopies :
    let s := { twoShares 1 2 [0x45, 0x66] 3 2 [0x4B, 0xFB] with scnt := 1 }
    s.scnt = 1 ∧ shIdx s 0 ≠ 0 ∧ 1 ≤ (shareLen s 0).toNat ∧ (shareLen s 0).toNat ≤ s.lmax.val ∧
      elemByte (after .combine s) (.sec 1) = 0x66 := by decide +kernel

/-- spec/95_test_vectors.md section 1.8, position 0: secret byte 0x73, coefficients 0x11, 0x36, indices 1 and 2. -/
theorem witness_TwoSharesOfThree :
    let s := dealer [0x73] 3 5 [.bytes [0x11, 0x36]]
    let u := twoShares 1 1 [0x54] 2 1 [0x89]
    ((∃ t, exec .split s = .next t ∧ t.errcode = 0x00 ∧ SameShare t 0 u 0 ∧ SameShare t 1 u 1) ∧ s.t = 3 ∧
      RngSupplies s s.slen.toNat 2 (fun _ => [0x11, 0x36]) ∧ 1 < s.n.toNat ∧ u.lmax = s.lmax ∧ u.scnt = 2 ∧
      elemByte (after .combine u) (.sec 0) = 0x1F ∧ 0x73 ^^^ gfMul (gfMul 0x36 1) 2 = 0x1F) ∧
    (0x01 : Byte) ≠ 0x02 := by
  refine ⟨⟨⟨_, rfl, ?_, ?_, ?_⟩, ?_⟩, ?_⟩
  · decide +kernel
  · unfold SameShare; decide +kernel
  · unfold SameShare; decide +kernel
  · unfold RngSupplies; decide +kernel
  · decide +kernel

theorem witness_ShareOrderIrrelevant :
    let s := twoShares 1 2 [0x45, 0x66] 3 2 [0x4B, 0xFB]
    let u := twoShares 3 2 [0x4B, 0xFB] 1 2 [0x45, 0x66]
    u.lmax = s.lmax ∧ u.scnt = s.scnt ∧ (∀ i < 2, 1 - i < 2) ∧ (∀ i < 2, ∀ j < 2, 1 - i = 1 - j → i = j) ∧
      ∀ i < 2, SameShare s (1 - i) u i := by
  unfold SameShare; decide +kernel

theorem witness_SplitCombineRoundTrip :
    let s := dealer [0x42, 0xA5] 2 3 [.bytes [7], .bytes [0xC3]]
    let u := twoShares 3 2 [0x4B, 0xFB] 1 2 [0x45, 0x66]
    (∃ t, exec .split s = .next t ∧ t.errcode = 0x00 ∧ ∀ i < u.scnt.toNat, SameShare t (2 - 2 * i) u i) ∧
      u.lmax = s.lmax ∧ s.t.toNat ≤ u.scnt.toNat ∧ u.scnt.toNat ≤ s.n.toNat ∧ (∀ i < u.scnt.toNat, 2 - 2 * i < s.n.toNat) ∧
      (∀ i < u.scnt.toNat, ∀ j < u.scnt.toNat, 2 - 2 * i = 2 - 2 * j → i = j) := by
  refine ⟨⟨_, rfl, ?_, ?_⟩, ?_⟩
  · decide +kernel
  · unfold SameShare; decide +kernel
  · decide +kernel

end Sys2Proof.Tests
end

section
/-!
SUPPORT. The parameter and the invariant: what each operation of a step keeps of them (spec/00_scope.md R6;
spec/10_state.md R27 to R29; spec/20_memory.md R63, R73, R81), and so what every step keeps.
-/

namespace Sys2Proof.Machine

/-! ### The addresses of buffer elements (R63) -/

/-- Decoding the address of a location's byte finds that location and byte, whatever LMAX is (R71). -/
theorem locAt_addr (lmax : Lmax) {l : Loc} {j : Nat} (hl : l.wf lmax.val = true) (hj : j < l.width) :
    locAt lmax.val (l.addr + j) = some (l, j) := by
  have hlmax := lmax.isLt
  cases l <;> simp only [Loc.wf, Loc.width, Bool.and_eq_true, decide_eq_true_eq] at hl hj
  case exp =>
    replace hj : j < 4 := hj
    interval_cases j <;> rfl
  case slen => interval_cases j <;> rfl
  case shLen s =>
    have hdiv : (0x0600 + 2 * s + j - 0x0600) / 2 = s := by omega
    have hmod : (0x0600 + 2 * s + j - 0x0600) % 2 = j := by omega
    simp (disch := omega) only [locAt, bufferAt, Loc.addr, if_pos, if_neg, hdiv, hmod]
  case shData s p =>
    obtain rfl : j = 0 := by omega
    have hdiv : (0x01000000 + s * 0x00010000 + p - 0x01000000) / 0x00010000 = s := by omega
    have hmod : (0x01000000 + s * 0x00010000 + p) % 0x00010000 = p := by omega
    simp (disch := omega) only [locAt, bufferAt, Loc.addr, Nat.add_zero, if_pos, if_neg, hdiv, hmod]
  all_goals obtain rfl : j = 0 := by omega
  case coef k | xs k | ys k | shIdx k | sec k =>
    simp (disch := omega) only [locAt, bufferAt, Loc.addr, Nat.add_zero, if_pos, if_neg, Nat.add_sub_cancel_left]
  all_goals rfl

theorem isBufferAddr_of_locAt {lmax a j : Nat} {l : Loc} (h : locAt lmax a = some (l, j)) (hb : l.isBuffer = true) :
    isBufferAddr lmax a = true := by
  simpa [isBufferAddr, h] using hb

theorem isBufferAddr_addr (lmax : Lmax) {l : Loc} {j : Nat} (hl : l.wf lmax.val = true) (hb : l.isBuffer = true)
    (hj : j < l.width) : isBufferAddr lmax.val (l.addr + j) = true :=
  isBufferAddr_of_locAt (locAt_addr lmax hl hj) hb

/-- The addresses of slot `i` with `len` bytes of data: SH_IDX[i], SH_LEN[i] and SH_DATA[i][0..len-1] (R185). -/
def SlotAddr (len i a : Nat) : Prop :=
  a = Loc.addr (.shIdx i) ∨ (Loc.addr (.shLen i) ≤ a ∧ a < Loc.addr (.shLen i) + 2) ∨
    (Loc.addr (.shData i 0) ≤ a ∧ a < Loc.addr (.shData i 0) + len)

theorem isBufferAddr_of_slotAddr (lmax : Lmax) {len i a : Nat} (hi : i < 255) (hlen : len ≤ lmax.val)
    (h : SlotAddr len i a) : isBufferAddr lmax.val a = true := by
  have elem : ∀ {l : Loc} {j : Nat}, l.wf lmax.val = true → l.isBuffer = true → j < l.width → a = l.addr + j →
      isBufferAddr lmax.val a = true := fun hl hb hj e => e ▸ isBufferAddr_addr lmax hl hb hj
  rcases h with h | ⟨h1, h2⟩ | ⟨h1, h2⟩
  · exact elem (l := .shIdx i) (by simpa [Loc.wf] using hi) rfl Nat.zero_lt_one h
  · exact elem (l := .shLen i) (j := a - Loc.addr (.shLen i)) (by simpa [Loc.wf] using hi) rfl
      (by simp only [Loc.width]; omega) (by omega)
  · refine elem (l := .shData i (a - Loc.addr (.shData i 0))) (j := 0) ?_ rfl Nat.zero_lt_one ?_
    · simp only [Loc.wf, Bool.and_eq_true, decide_eq_true_eq]; omega
    · simp only [Loc.addr] at h1 ⊢; omega

/-- Writing a slot lists no address but the slot's own. -/
theorem mem_writeSlot {m : Memory} {i : Nat} {x : Byte} {len : Half} {bytes : List Byte} {c : Host.Cell}
    (h : c ∈ writeSlot m i x len bytes) : SlotAddr bytes.length i c.1 ∨ c ∈ m := by
  rcases mem_memInsertList h with h | h
  · exact Or.inl (Or.inr (Or.inr h))
  rcases mem_memInsertList h with h | h
  · exact Or.inl (Or.inr (Or.inl h))
  rcases mem_memInsert h with h | h
  · exact Or.inl (Or.inl (congrArg Prod.fst h))
  · exact Or.inr h

/-- Writing the slots from `i` on lists no address but those slots' own. -/
theorem mem_writeSlots {m : Memory} {i : Nat} {len : Half} {polys : List (List Byte)} {xs : List Byte} {c : Host.Cell}
    (h : c ∈ writeSlots m i len polys xs) :
    (∃ q < xs.length, SlotAddr polys.length (i + q) c.1) ∨ c ∈ m := by
  induction xs generalizing m i with
  | nil => exact Or.inr h
  | cons x xs ih =>
    rcases ih h with ⟨q, hq, h⟩ | h
    · refine Or.inl ⟨q + 1, Nat.succ_lt_succ hq, ?_⟩
      rwa [Nat.add_assoc, Nat.add_comm 1] at h
    · refine (mem_writeSlot h).imp_left fun h => ⟨0, Nat.succ_pos _, ?_⟩
      simpa using h

@[simp] theorem splitXs_length (s : State) : (splitXs s).length = s.n.toNat := by
  unfold splitXs
  split <;> simp [xsOperand, defaultXs]

/-! ### STATUS and ERRCODE of a command that ended (R27, R28, R211) -/

@[simp] theorem statusDone_reserved (k : BitVec 2) : (statusDone k).extractLsb' 2 5 = 0 := by revert k; decide

@[simp] theorem statusKind_statusDone (k : BitVec 2) : statusKind (statusDone k) = k := by revert k; decide

@[simp] theorem statusIsDone_statusDone (k : BitVec 2) : statusIsDone (statusDone k) = true := by revert k; decide

@[simp] theorem kindOfErrcode_causeCode (c : Cause) : kindOfErrcode (causeCode c) = some (kindCode (causeKind c)) := by
  cases c <;> decide

theorem causeCode_ne_zero (c : Cause) : causeCode c ≠ 0x00 := by cases c <;> decide

/-- A completed command's STATUS fits its ERRCODE when its KIND does. -/
theorem statusInv_of_done {s : State} {k : BitVec 2} (hstatus : s.status = statusDone k)
    (hcode : kindOfErrcode s.errcode = some k) : StatusInv s := by
  simp [StatusInv, hstatus, hcode]

theorem statusInv_succeed (s : State) : StatusInv (succeed s) := statusInv_of_done rfl (by simp [kindOfErrcode])

theorem statusInv_failWith (s : State) (c : Cause) : StatusInv (failWith s c) :=
  statusInv_of_done rfl (kindOfErrcode_causeCode c)

theorem ctrlKeep_reserved (v : Byte) : (ctrlKeep v).extractLsb' 1 7 = 0 :=
  BitVec.extractLsb'_append_eq_of_le Nat.le.refl

/-! ### What the writes of a command and of the HOST keep -/

/-- What a host write elsewhere than to CMD leaves, before its response is shown: the state itself where the address is
unmapped, else what the store gives (R65, R66). -/
theorem busWrite_eq_respond (s : State) (a : Nat) (v : Byte) :
    ∃ s' r, busWrite s a v = respond s' r ∧ (s' = s ∨ hostStore s a v = some s') := by
  unfold busWrite
  split
  · next s' h => exact ⟨s', _, rfl, Or.inr h⟩
  · exact ⟨s, _, rfl, Or.inl rfl⟩

theorem Writes.lmax_eq {s s' w : State} {i : Instr} (h : Writes s s' i w) : w.lmax = s'.lmax := by cases h <;> rfl

theorem exec_lmax {i : Instr} {s t : State} (h : exec i s = .next t) : t.lmax = s.lmax := by
  obtain ⟨s', hs, ⟨c, rfl⟩ | ⟨w, hw, rfl⟩⟩ := exec_eq_next h
  · exact hs.lmax_eq
  · exact hw.lmax_eq.trans hs.lmax_eq

theorem hostStore_lmax {s s' : State} {a : Nat} {v : Byte} (h : hostStore s a v = some s') : s'.lmax = s.lmax := by
  rcases hostStore_eq_some h with ⟨_, _, -, -, rfl⟩ | ⟨_, _, _, _, _, _, _, _, _, _, rfl⟩ | rfl <;> rfl

@[simp] theorem busWrite_lmax (s : State) (a : Nat) (v : Byte) : (busWrite s a v).lmax = s.lmax := by
  obtain ⟨s', r, e, rfl | h⟩ := busWrite_eq_respond s a v
  · rw [e, respond_lmax]
  · rw [e, respond_lmax, hostStore_lmax h]

@[simp] theorem busRead_lmax (s : State) (a : Nat) : (busRead s a).lmax = s.lmax := by
  rw [busRead_eq_respond, respond_lmax]

/-- Settles O19: every kind of step keeps the parameter. -/
theorem stepKeepsParameter : Obligations.StepKeepsParameter := by
  intro s t h
  rcases step_eq_next h with ⟨-, rfl⟩ | ⟨a, ms, -, rfl⟩ | ⟨a, v, ms, -, -, rfl⟩ | ⟨ms, -, rfl⟩ |
    ⟨a, v, ms, -, -, -, rfl⟩ | ⟨a, v, ms, i, -, -, -, h⟩
  · rfl
  · exact busRead_lmax _ _
  · exact busWrite_lmax _ _ _
  · rfl
  · rfl
  · exact (exec_lmax h).trans rfl

/-! ### The invariant, operation by operation -/

theorem State.Inv.respond {s : State} (h : s.Inv) (r : HostResponse) : (respond s r).Inv := h

theorem State.Inv.setHost {s : State} (h : s.Inv) (ms : List HostMove) : (setHost s ms).Inv := h

theorem State.Inv.failWith {s : State} (h : s.Inv) (c : Cause) : (failWith s c).Inv := by
  obtain ⟨hlmax, -, hctrl, hmem, hrng⟩ := h
  exact ⟨hlmax, statusInv_failWith s c, hctrl, hmem, hrng⟩

theorem State.Inv.resetBlock {s : State} (h : s.Inv) : (resetBlock s).Inv := by
  obtain ⟨hlmax, -, -, -, hrng⟩ := h
  refine ⟨hlmax, ?_, ?_, ⟨rfl, by simp⟩, hrng⟩
  · simp [StatusInv, kindOfErrcode, statusKind]
  · simp [CtrlInv]

/-- Drawing random bytes keeps the invariant: each request asks for 1 to 255 bytes (R81, R83). -/
theorem State.Inv.sameButRng {d : Nat} {s s' : State} (h : s.Inv) (hs : SameButRng d s s') (hd : d ≤ 255) : s'.Inv := by
  obtain ⟨hlmax, hstatus, hctrl, hmem, hrng⟩ := h
  obtain ⟨news, hnews, e⟩ := hs
  rw [e]
  refine ⟨hlmax, hstatus, hctrl, hmem, fun r hr => ?_⟩
  rcases List.mem_append.mp hr with hr | hr
  · obtain ⟨hlen, htaken, hpos⟩ := hnews r hr
    omega
  · exact hrng r hr

/-- A new memory keeps the canonical form when it is canonical and lists nothing new but buffer elements. -/
theorem MemInv.setMem {s : State} {m : Memory} (h : MemInv s) (hwf : memWf m = true)
    (hnew : ∀ c ∈ m, isBufferAddr s.lmax.val c.1 = true ∨ c ∈ s.mem) : MemInv (setMem s m) :=
  ⟨hwf, fun c hc => (hnew c hc).elim id (h.2 c)⟩

/-- Consecutive bytes keep the memory's form where each lands in an element of one kind. -/
theorem MemInv.memInsertList {s : State} (h : MemInv s) (l : Nat → Loc) {a : Nat} {vs : List Byte}
    (hl : ∀ k < vs.length, (l k).wf s.lmax.val = true ∧ (l k).isBuffer = true ∧ 0 < (l k).width ∧ (l k).addr = a + k) :
    MemInv (Machine.setMem s (memInsertList s.mem a vs)) := by
  refine h.setMem (memWf_memInsertList h.1 _ _) fun c hc => (mem_memInsertList hc).imp_left fun ⟨hle, hlt⟩ => ?_
  obtain ⟨hwf, hbuf, hwidth, haddr⟩ := hl (c.1 - a) (by omega)
  have := isBufferAddr_addr s.lmax hwf hbuf hwidth
  rwa [haddr, Nat.add_zero, Nat.add_sub_cancel' hle] at this

/-- The writes of a command keep the memory's form: they go to existing elements of COEF, SEC and the slots (R46). -/
theorem Writes.memInv {s s' w : State} {i : Instr} (h : Writes s s' i w) (hlmax : s'.lmax = s.lmax) (hmem : MemInv s') :
    MemInv w := by
  cases h with
  | res | xdistinct => exact hmem
  | pbuild c hlen =>
    have hdeg := s.deg.isLt
    refine hmem.memInsertList .coef fun k hk => ⟨?_, rfl, Nat.zero_lt_one, rfl⟩
    simp only [Loc.wf, decide_eq_true_eq]
    omega
  | split polys hlen hc =>
    obtain ⟨-, hslen, -, -, hn⟩ := splitCheck_eq_none hc
    refine hmem.setMem (memWf_writeSlots hmem.1 _ _ _ _) fun c hc => (mem_writeSlots hc).imp_left fun ⟨q, hq, ha⟩ => ?_
    rw [splitXs_length] at hq
    exact isBufferAddr_of_slotAddr _ (by omega) (by rwa [hlen, hlmax]) ha
  | combine bytes hlen hc =>
    obtain ⟨-, -, hle, -⟩ := combineCheck_eq_none hc
    refine MemInv.memInsertList (s := setSlen s' _) hmem .sec fun k hk => ⟨?_, rfl, Nat.zero_lt_one, rfl⟩
    simp only [Loc.wf, decide_eq_true_eq, setSlen_lmax, hlmax]
    omega

theorem State.Inv.succeed_writes {s s' w : State} {i : Instr} (h : s'.Inv) (hw : Writes s s' i w)
    (hlmax : s'.lmax = s.lmax) : (succeed w).Inv := by
  obtain ⟨hlmaxInv, -, hctrl, hmem, hrng⟩ := h
  have hmem := hw.memInv hlmax hmem
  cases hw <;> exact ⟨hlmaxInv, statusInv_succeed _, hctrl, hmem, hrng⟩

/-- A command asks for at most 255 bytes in one request (R81). -/
theorem requestLen_le (i : Instr) (s : State) : requestLen i s ≤ 255 := by
  have hdeg := s.deg.isLt
  have ht := s.t.isLt
  cases i <;> simp only [requestLen] <;> omega

theorem State.Inv.exec {i : Instr} {s t : State} (hs : s.Inv) (h : exec i s = .next t) : t.Inv := by
  obtain ⟨s', hrng, hend⟩ := exec_eq_next h
  have hs' := hs.sameButRng hrng (requestLen_le i s)
  obtain ⟨c, rfl⟩ | ⟨w, hw, rfl⟩ := hend
  · exact hs'.failWith c
  · exact hs'.succeed_writes hw hrng.lmax_eq

theorem State.Inv.hostStore {s s' : State} {a : Nat} {v : Byte} (hs : s.Inv) (h : hostStore s a v = some s') : s'.Inv := by
  obtain ⟨hlmax, hstatus, hctrl, hmem, hrng⟩ := hs
  rcases hostStore_eq_some h with ⟨l, j, hl, hbuf, rfl⟩ | ⟨_, _, _, _, _, _, _, _, _, _, rfl⟩ | rfl
  · refine ⟨hlmax, hstatus, hctrl, hmem.setMem (memWf_memInsert hmem.1 a v) fun c hc => ?_, hrng⟩
    refine (mem_memInsert hc).imp_left fun e => ?_
    rw [e]
    exact isBufferAddr_of_locAt hl hbuf
  · exact ⟨hlmax, hstatus, hctrl, hmem, hrng⟩
  · exact ⟨hlmax, hstatus, ctrlKeep_reserved v, hmem, hrng⟩

theorem State.Inv.busWrite {s : State} (hs : s.Inv) (a : Nat) (v : Byte) : (busWrite s a v).Inv := by
  obtain ⟨s', r, e, rfl | h⟩ := busWrite_eq_respond s a v
  · exact e ▸ hs.respond r
  · exact e ▸ (hs.hostStore h).respond r

theorem State.Inv.busRead {s : State} (hs : s.Inv) (a : Nat) : (busRead s a).Inv := by
  rw [busRead_eq_respond]
  exact hs.respond _

/-- Settles O18: every kind of step keeps the invariant. -/
theorem stepKeepsInvariant : Obligations.StepKeepsInvariant := by
  intro s t hs h
  rcases step_eq_next h with ⟨-, rfl⟩ | ⟨a, ms, -, rfl⟩ | ⟨a, v, ms, -, -, rfl⟩ | ⟨ms, -, rfl⟩ |
    ⟨a, v, ms, -, -, -, rfl⟩ | ⟨a, v, ms, i, -, -, -, h⟩
  · exact hs
  · exact (hs.setHost ms).busRead _
  · exact (hs.setHost ms).busWrite _ _
  · exact (hs.setHost ms).resetBlock
  · exact ((hs.setHost ms).respond _).failWith _
  · exact ((hs.setHost ms).respond _).exec h

end Sys2Proof.Machine
end

section
/-!
SUPPORT. What a command's result depends on: in two states that agree on what its row of the table of spec/10_state.md R46
reads, and whose source answers alike, a command ends alike and leaves the same in what it writes.
-/

namespace Sys2Proof.Machine

/-! ### Buffer bytes after the same writes -/

/-- The same consecutive bytes written in two states: an address reads alike when it did before or lies in the range. -/
theorem bufferByte_memInsertList_congr {s u : State} {m m' : Memory} {a b : Nat} {vs : List Byte}
    (h : bufferByte (setMem s m) a = bufferByte (setMem u m') a ∨ (b ≤ a ∧ a < b + vs.length)) :
    bufferByte (setMem s (memInsertList m b vs)) a = bufferByte (setMem u (memInsertList m' b vs)) a := by
  have hs := bufferByte_setMem_memInsertList (setMem s m) b a vs
  have hu := bufferByte_setMem_memInsertList (setMem u m') b a vs
  refine hs.trans (Eq.trans ?_ hu.symm)
  split
  · rfl
  · exact h.resolve_right (by omega)

theorem bufferByte_writeSlot_congr {s u : State} {m m' : Memory} {i a : Nat} {x : Byte} {len : Half} {bytes : List Byte}
    (h : bufferByte (setMem s m) a = bufferByte (setMem u m') a ∨ SlotAddr bytes.length i a) :
    bufferByte (setMem s (writeSlot m i x len bytes)) a = bufferByte (setMem u (writeSlot m' i x len bytes)) a := by
  have hidx : bufferByte (setMem s m) a = bufferByte (setMem u m') a ∨ a = Loc.addr (.shIdx i) →
      bufferByte (setMem s (memInsert m (Loc.addr (.shIdx i)) x)) a =
        bufferByte (setMem u (memInsert m' (Loc.addr (.shIdx i)) x)) a :=
    fun h => bufferByte_memInsertList_congr (vs := [x]) (h.imp_right fun e => by simp [e])
  unfold writeSlot
  rcases h with h | h | h | h
  · exact bufferByte_memInsertList_congr (Or.inl (bufferByte_memInsertList_congr (Or.inl (hidx (Or.inl h)))))
  · exact bufferByte_memInsertList_congr (Or.inl (bufferByte_memInsertList_congr (Or.inl (hidx (Or.inr h)))))
  · exact bufferByte_memInsertList_congr (Or.inl (bufferByte_memInsertList_congr (Or.inr h)))
  · exact bufferByte_memInsertList_congr (Or.inr h)

/-- The same slots written in two states: an address reads alike when it did before or belongs to one of the slots. -/
theorem bufferByte_writeSlots_congr {s u : State} {m m' : Memory} {i a : Nat} {len : Half} {polys : List (List Byte)}
    {xs : List Byte}
    (h : bufferByte (setMem s m) a = bufferByte (setMem u m') a ∨ ∃ q < xs.length, SlotAddr polys.length (i + q) a) :
    bufferByte (setMem s (writeSlots m i len polys xs)) a = bufferByte (setMem u (writeSlots m' i len polys xs)) a := by
  induction xs generalizing m m' i with
  | nil => exact h.resolve_right (by simp)
  | cons x xs ih =>
    rcases h with h | ⟨_ | q, hq, h⟩
    · exact ih (Or.inl (bufferByte_writeSlot_congr (Or.inl h)))
    · exact ih (Or.inl (bufferByte_writeSlot_congr (Or.inr (by simpa using h))))
    · exact ih (Or.inr ⟨q, Nat.lt_of_succ_lt_succ hq, by rwa [Nat.add_assoc, Nat.add_comm 1]⟩)

/-! ### The randomness port, in two states whose source answers alike -/

/-- The source answers the next requests alike in both states (R81). -/
def SameAnswers (s u : State) : Prop := ∀ j len, rngAnswerAt s j len = rngAnswerAt u j len

/-- Closing a request moves the source on to its next answer (R87). -/
theorem rngAnswerAt_closeRequest (s : State) (d taken j len : Nat) :
    rngAnswerAt (closeRequest s d taken) j len = rngAnswerAt s (j + 1) len := by
  simp [rngAnswerAt, Nat.add_right_comm, Nat.add_assoc]

theorem SameAnswers.closeRequest {s u : State} (h : SameAnswers s u) (d taken : Nat) :
    SameAnswers (closeRequest s d taken) (closeRequest u d taken) := by
  intro j len
  rw [rngAnswerAt_closeRequest, rngAnswerAt_closeRequest, h]

/-- A part of a command ends alike: with one value, with one error, or never. -/
inductive SameEnd {α : Type} : EngineResult α → EngineResult α → Prop where
  | done (a : α) {s u : State} (h : SameAnswers s u) : SameEnd (.done a s) (.done a u)
  | raised (c : Cause) (s u : State) : SameEnd (.raised c s) (.raised c u)
  | hung : SameEnd .hung .hung

/-- A request draws the same bytes in both states, or hangs in both (R81, R85). -/
theorem rngDraw_alike {s u : State} (h : SameAnswers s u) (len : Nat) :
    (rngDraw s len = none ∧ rngDraw u len = none) ∨
      ∃ r s' u', rngDraw s len = some (r, s') ∧ rngDraw u len = some (r, u') ∧ SameAnswers s' u' := by
  unfold rngDraw
  rw [← h 0 len]
  cases rngAnswerAt s 0 len with
  | never => exact Or.inl ⟨rfl, rfl⟩
  | bytes r => exact Or.inr ⟨_, _, _, rfl, rfl, h.closeRequest _ _⟩

theorem buildPoly_alike {s u : State} (h : SameAnswers s u) (b : Byte) (d : Nat) :
    SameEnd (buildPoly s b d) (buildPoly u b d) := by
  unfold buildPoly
  split
  · exact .done _ h
  · rcases rngDraw_alike h d with ⟨hs, hu⟩ | ⟨r, s', u', hs, hu, h'⟩
    · rw [hs, hu]
      exact .hung
    · rw [hs, hu]
      dsimp only
      split
      · exact .raised _ _ _
      · exact .done _ h'

theorem drawPolys_alike {s u : State} (h : SameAnswers s u) (d : Nat) (bs : List Byte) :
    SameEnd (drawPolys s d bs) (drawPolys u d bs) := by
  induction bs generalizing s u with
  | nil => exact .done _ h
  | cons b bs ih =>
    have hb := buildPoly_alike h b d
    unfold drawPolys
    generalize buildPoly s b d = r, buildPoly u b d = r' at hb
    cases hb with
    | hung => exact .hung
    | raised c s' u' => exact .raised c s' u'
    | done c h' =>
      rename_i s' u'
      have hbs := ih h'
      dsimp only
      generalize drawPolys s' d bs = r, drawPolys u' d bs = r' at hbs
      cases hbs with
      | hung => exact .hung
      | raised c s'' u'' => exact .raised c s'' u''
      | done cs h'' => exact .done _ h''

/-! ### Operands and checks, in two states that agree on what is read -/

theorem map_range_congr {α : Type} {f g : Nat → α} {k : Nat} (h : ∀ j < k, f j = g j) :
    (List.range k).map f = (List.range k).map g :=
  List.map_congr_left fun j hj => h j (List.mem_range.mp hj)

theorem pointsCheck_congr {s u : State} (hx : s.xcnt = u.xcnt) (hy : s.ycnt = u.ycnt)
    (hxs : xsOperand s s.xcnt.toNat = xsOperand u s.xcnt.toNat) : pointsCheck s = pointsCheck u := by
  unfold pointsCheck
  rw [hxs, hx, hy]

theorem xcnt_eq_ycnt_of_pointsCheck {s : State} (h : pointsCheck s = none) : s.xcnt = s.ycnt := by
  unfold pointsCheck at h
  split at h
  · cases h
  · next hne => exact not_not.mp hne

theorem splitXs_congr {s u : State} (hn : s.n = u.n) (hctrl : ctrlXexpl s.ctrl = ctrlXexpl u.ctrl)
    (hxs : ctrlXexpl s.ctrl = true → ∀ j < s.n.toNat, elemByte s (.xs j) = elemByte u (.xs j)) :
    splitXs s = splitXs u := by
  unfold splitXs
  rw [← hctrl, ← hn]
  split
  · next hx => exact map_range_congr (hxs hx)
  · rfl

theorem splitCheck_congr {s u : State} (hlmax : s.lmax = u.lmax) (hslen : s.slen = u.slen) (ht : s.t = u.t)
    (hn : s.n = u.n) (hctrl : ctrlXexpl s.ctrl = ctrlXexpl u.ctrl) (hxcnt : ctrlXexpl s.ctrl = true → s.xcnt = u.xcnt)
    (hxs : splitXs s = splitXs u) : splitCheck s = splitCheck u := by
  unfold splitCheck
  rw [← hlmax, ← hslen, ← ht, ← hn, ← hctrl, ← hxs]
  cases hx : ctrlXexpl s.ctrl with
  | false => rfl
  | true => rw [hxcnt hx]

theorem combineCheck_congr {s u : State} (hlmax : s.lmax = u.lmax) (hscnt : s.scnt = u.scnt)
    (hidx : shareIndices s s.scnt.toNat = shareIndices u s.scnt.toNat)
    (hlen : ∀ j < s.scnt.toNat, shareLen s j = shareLen u j) : combineCheck s = combineCheck u := by
  unfold combineCheck
  rw [← hlmax, ← hscnt]
  dsimp only
  split
  · rfl
  · next hk =>
    have hlens : shareLens s s.scnt.toNat = shareLens u s.scnt.toNat := map_range_congr hlen
    rw [hidx, hlens, hlen 0 (Nat.pos_of_ne_zero hk)]

/-- Where COMBINE's checks pass, all the shares have one length (R191). -/
theorem shareLen_eq_of_combineCheck {s : State} (h : combineCheck s = none) {j : Nat} (hj : j < s.scnt.toNat) :
    shareLen s j = shareLen s 0 := by
  unfold combineCheck at h
  dsimp only at h
  split at h; · cases h
  split at h; · cases h
  split at h; · cases h
  split at h; · cases h
  next hany =>
  simp only [shareLens, List.any_eq_true, List.mem_map, List.mem_range, decide_eq_true_eq, not_exists, not_and,
    not_not] at hany
  exact hany _ ⟨j, hj, rfl⟩

theorem combineBytes_congr {s u : State} {k : Nat} {ps : List Nat} (hidx : shareIndices s k = shareIndices u k)
    (hcol : ∀ p ∈ ps, shareColumn s k p = shareColumn u k p) : combineBytes s k ps = combineBytes u k ps := by
  induction ps with
  | nil => rfl
  | cons p ps ih =>
    unfold combineBytes
    rw [hidx, hcol p List.mem_cons_self, ih fun q hq => hcol q (List.mem_cons_of_mem _ hq)]

/-! ### The commands, in two states that agree on what they read -/

/-- Command `i`, launched in `s` and in another state, ends alike: with one fault, with one error, or with success and the
same values in what it writes (R46). -/
inductive EndsAlike (i : Instr) (s : State) : Outcome → Outcome → Prop where
  | fault (f : Fault) : EndsAlike i s (.fault f) (.fault f)
  | raise (c : Cause) (t v : State) : EndsAlike i s (raise t c) (raise v c)
  | finish (t v : State) (hres : writesRes i = true → t.res = v.res) (hslen : i = .combine → t.slen = v.slen)
      (helem : ∀ l, writesElement i s l → ∀ j < l.width, bufferByte t (l.addr + j) = bufferByte v (l.addr + j)) :
      EndsAlike i s (finish t) (finish v)

/-- A command that writes RES writes no buffer element (R46). -/
theorem not_writesElement_of_writesRes {i : Instr} (h : writesRes i = true) (s : State) (l : Loc) :
    ¬ writesElement i s l := by
  cases i with
  | xdistinct | pbuild | split | combine => cases h
  | _ => exact id

theorem EndsAlike.finishRes {i : Instr} {s t v : State} {a b : Byte} (hi : writesRes i = true) (h : a = b) :
    EndsAlike i s (finishRes t a) (finishRes v b) :=
  .finish _ _ (fun _ => h) (by rintro rfl; cases hi) fun l hl => absurd hl (not_writesElement_of_writesRes hi s l)

theorem EndsAlike.finishResOr {i : Instr} {s t v : State} {a b : Option Byte} (c : Cause) (hi : writesRes i = true)
    (h : a = b) : EndsAlike i s (finishResOr t c a) (finishResOr v c b) := by
  subst h
  cases a with
  | none => exact .raise c t v
  | some a => exact .finishRes hi rfl

theorem execPeval_endsAlike {s u : State} (h : AgreeOnReads .peval s u) :
    EndsAlike .peval s (execPeval s) (execPeval u) := by
  obtain ⟨hopa, hdeg, hcoef⟩ := h
  have hpoly : polyOperand s = polyOperand u := by
    unfold polyOperand
    rw [← hdeg]
    exact map_range_congr fun k hk => hcoef k (Nat.le_of_lt_succ hk)
  exact .finishRes rfl (by rw [hpoly, hopa])

theorem execXdistinct_endsAlike {s u : State} (h : AgreeOnReads .xdistinct s u) :
    EndsAlike .xdistinct s (execXdistinct s) (execXdistinct u) := by
  obtain ⟨hxcnt, hxs⟩ := h
  have hxs : xsOperand s s.xcnt.toNat = xsOperand u s.xcnt.toNat := map_range_congr hxs
  unfold execXdistinct
  rw [← hxcnt, ← hxs]
  split
  · exact .finish s u nofun nofun nofun
  · exact .raise _ s u

theorem execLbasis_endsAlike {s u : State} (h : AgreeOnReads .lbasis s u) :
    EndsAlike .lbasis s (execLbasis s) (execLbasis u) := by
  obtain ⟨hopa, hopb, hxcnt, hxs⟩ := h
  have hxs : xsOperand s s.xcnt.toNat = xsOperand u s.xcnt.toNat := map_range_congr hxs
  unfold execLbasis
  rw [← hxcnt, ← hopb, ← hopa, ← hxs]
  split
  · exact .raise _ s u
  · exact .finishResOr _ rfl rfl

/-- The common part of LINTERP and LINTERP0: alike checks, and after them alike points. -/
theorem points_agree {s u : State} (hxcnt : s.xcnt = u.xcnt) (hycnt : s.ycnt = u.ycnt)
    (hxs : ∀ j < s.xcnt.toNat, elemByte s (.xs j) = elemByte u (.xs j))
    (hys : ∀ j < s.ycnt.toNat, elemByte s (.ys j) = elemByte u (.ys j)) :
    pointsCheck s = pointsCheck u ∧ (pointsCheck s = none →
      xsOperand s s.xcnt.toNat = xsOperand u u.xcnt.toNat ∧ ysOperand s s.xcnt.toNat = ysOperand u u.xcnt.toNat) := by
  have hxs : xsOperand s s.xcnt.toNat = xsOperand u s.xcnt.toNat := map_range_congr hxs
  refine ⟨pointsCheck_congr hxcnt hycnt hxs, fun hc => ?_⟩
  rw [← hxcnt]
  rw [← xcnt_eq_ycnt_of_pointsCheck hc] at hys
  exact ⟨hxs, map_range_congr hys⟩

theorem execLinterp_endsAlike {s u : State} (h : AgreeOnReads .linterp s u) :
    EndsAlike .linterp s (execLinterp s) (execLinterp u) := by
  obtain ⟨hopa, hxcnt, hycnt, hxs, hys⟩ := h
  obtain ⟨hcheck, hpoints⟩ := points_agree hxcnt hycnt hxs hys
  unfold execLinterp
  rw [← hcheck]
  cases hc : pointsCheck s with
  | some c => exact .raise c s u
  | none =>
    obtain ⟨hxs, hys⟩ := hpoints hc
    exact .finishResOr _ rfl (by rw [hxs, hys, hopa])

theorem execLinterp0_endsAlike {s u : State} (h : AgreeOnReads .linterp0 s u) :
    EndsAlike .linterp0 s (execLinterp0 s) (execLinterp0 u) := by
  obtain ⟨hxcnt, hycnt, hxs, hys⟩ := h
  obtain ⟨hcheck, hpoints⟩ := points_agree hxcnt hycnt hxs hys
  unfold execLinterp0
  rw [← hcheck]
  cases hc : pointsCheck s with
  | some c => exact .raise c s u
  | none =>
    obtain ⟨hxs, hys⟩ := hpoints hc
    exact .finishResOr _ rfl (by rw [hxs, hys])

/-- PBUILD writes COEF[0], ..., COEF[DEG] (R46), which `d + 1` bytes from COEF[0] on cover. -/
theorem coef_range_of_writesElement {s : State} {l : Loc} {j : Nat} (h : writesElement .pbuild s l) (hj : j < l.width) :
    Loc.addr (.coef 0) ≤ l.addr + j ∧ l.addr + j < Loc.addr (.coef 0) + (s.deg.toNat + 1) := by
  cases l with
  | coef k =>
    replace h : k ≤ s.deg.toNat := h
    replace hj : j < 1 := hj
    simp only [Loc.addr]
    omega
  | _ => exact h.elim

theorem execPbuild_endsAlike {s u : State} (h : AgreeOnReads .pbuild s u) :
    EndsAlike .pbuild s (execPbuild s) (execPbuild u) := by
  obtain ⟨hopa, hdeg, hans⟩ := h
  have hb := buildPoly_alike hans s.opa s.deg.toNat
  unfold execPbuild
  rw [← hopa, ← hdeg]
  generalize hr : buildPoly s s.opa s.deg.toNat = r, buildPoly u s.opa s.deg.toNat = r' at hb
  cases hb with
  | hung => exact .fault _
  | raised c s' u' => exact .raise c s' u'
  | done c _ =>
    obtain ⟨hlen, -, -⟩ := buildPoly_eq_done hr
    refine .finish _ _ nofun nofun fun l hl j hj => bufferByte_memInsertList_congr (Or.inr ?_)
    rw [hlen]
    exact coef_range_of_writesElement hl hj

/-- SPLIT writes SLEN bytes of data in each of the slots 0 to N-1, with their indices and lengths (R46). -/
theorem slotAddr_of_writesElement {s : State} {l : Loc} {j : Nat} (h : writesElement .split s l) (hj : j < l.width) :
    ∃ q < s.n.toNat, SlotAddr s.slen.toNat q (l.addr + j) := by
  cases l with
  | shIdx q =>
    obtain rfl : j = 0 := Nat.lt_one_iff.mp hj
    exact ⟨q, h, Or.inl rfl⟩
  | shLen q => exact ⟨q, h, Or.inr (Or.inl ⟨Nat.le_add_right _ _, Nat.add_lt_add_left hj _⟩)⟩
  | shData q p =>
    obtain ⟨hq, hp⟩ := h
    replace hj : j < 1 := hj
    refine ⟨q, hq, Or.inr (Or.inr ?_)⟩
    simp only [Loc.addr]
    omega
  | _ => exact h.elim

theorem execSplit_endsAlike {s u : State} (h : AgreeOnReads .split s u) :
    EndsAlike .split s (execSplit s) (execSplit u) := by
  obtain ⟨hlmax, hslen, hsec, ht, hn, hctrl, hexpl, hans⟩ := h
  have hxs := splitXs_congr hn hctrl fun hx => (hexpl hx).2
  have hcheck := splitCheck_congr hlmax hslen ht hn hctrl (fun hx => (hexpl hx).1) hxs
  unfold execSplit
  rw [← hcheck, ← ht, ← hslen, ← hxs]
  cases hc : splitCheck s with
  | some c => exact .raise c s u
  | none =>
    obtain ⟨-, hle, -⟩ := splitCheck_eq_none hc
    have hsecret : secretOperand s = secretOperand u := by
      unfold secretOperand
      rw [← hslen]
      exact map_range_congr fun p hp => hsec p hp (by omega)
    have hd := drawPolys_alike hans (s.t.toNat - 1) (secretOperand s)
    rw [← hsecret]
    dsimp only
    generalize hr : drawPolys s (s.t.toNat - 1) (secretOperand s) = r,
      drawPolys u (s.t.toNat - 1) (secretOperand s) = r' at hd
    cases hd with
    | hung => exact .fault _
    | raised c s' u' => exact .raise c s' u'
    | done polys _ =>
      obtain ⟨hlen, -, -⟩ := drawPolys_eq_done hr
      refine .finish _ _ nofun nofun fun l hl j hj => bufferByte_writeSlots_congr (Or.inr ?_)
      obtain ⟨q, hq, ha⟩ := slotAddr_of_writesElement hl hj
      exact ⟨q, by rwa [splitXs_length], by simpa [hlen, secretOperand] using ha⟩

/-- COMBINE writes SEC[0], ..., as many as the shares are long (R46). -/
theorem sec_range_of_writesElement {s : State} {l : Loc} {j : Nat} (h : writesElement .combine s l) (hj : j < l.width) :
    Loc.addr (.sec 0) ≤ l.addr + j ∧ l.addr + j < Loc.addr (.sec 0) + (shareLen s 0).toNat := by
  cases l with
  | sec p =>
    replace h : p < (shareLen s 0).toNat := h
    replace hj : j < 1 := hj
    simp only [Loc.addr]
    omega
  | _ => exact h.elim

theorem execCombine_endsAlike {s u : State} (h : AgreeOnReads .combine s u) :
    EndsAlike .combine s (execCombine s) (execCombine u) := by
  obtain ⟨hlmax, hscnt, hshare⟩ := h
  have hidx : shareIndices s s.scnt.toNat = shareIndices u s.scnt.toNat := map_range_congr fun j hj => (hshare j hj).1
  have hcheck := combineCheck_congr hlmax hscnt hidx fun j hj => (hshare j hj).2.1
  unfold execCombine
  rw [← hcheck, ← hscnt]
  cases hc : combineCheck s with
  | some c => exact .raise c s u
  | none =>
    obtain ⟨hpos, -, hle, -⟩ := combineCheck_eq_none hc
    have hlen0 : shareLen s 0 = shareLen u 0 := (hshare 0 hpos).2.1
    have hbytes : combineBytes s s.scnt.toNat (List.range (shareLen s 0).toNat) =
        combineBytes u s.scnt.toNat (List.range (shareLen s 0).toNat) := by
      refine combineBytes_congr hidx fun p hp => map_range_congr fun j hj => ?_
      have hp := List.mem_range.mp hp
      exact (hshare j hj).2.2 p (by rwa [shareLen_eq_of_combineCheck hc hj]) (by omega)
    rw [← hlen0, ← hbytes]
    dsimp only
    cases hb : combineBytes s s.scnt.toNat (List.range (shareLen s 0).toNat) with
    | none => exact .raise _ s u
    | some bytes =>
      have hlen : bytes.length = (shareLen s 0).toNat := by simpa using combineBytes_length hb
      refine .finish _ _ nofun (fun _ => rfl) fun l hl j hj =>
        bufferByte_memInsertList_congr (s := setSlen s _) (u := setSlen u _) (Or.inr ?_)
      rw [hlen]
      exact sec_range_of_writesElement hl hj

/-- Every command ends alike in two states that agree on what its row of R46 reads. -/
theorem exec_endsAlike {i : Instr} {s u : State} (h : AgreeOnReads i s u) : EndsAlike i s (exec i s) (exec i u) := by
  cases i with
  | gfadd => obtain ⟨ha, hb⟩ := h; exact .finishRes rfl (congrArg₂ gfAdd ha hb)
  | gfsub => obtain ⟨ha, hb⟩ := h; exact .finishRes rfl (congrArg₂ gfSub ha hb)
  | gfmul => obtain ⟨ha, hb⟩ := h; exact .finishRes rfl (congrArg₂ gfMul ha hb)
  | gfdiv => obtain ⟨ha, hb⟩ := h; exact .finishResOr _ rfl (congrArg₂ gfDiv ha hb)
  | gfpow => obtain ⟨ha, he⟩ := h; exact .finishRes rfl (congrArg₂ gfPow ha he)
  | gfxtime => exact .finishRes rfl (congrArg gfXtime h)
  | gfinv => exact .finishResOr _ rfl (congrArg gfInv h)
  | peval => exact execPeval_endsAlike h
  | xdistinct => exact execXdistinct_endsAlike h
  | lbasis => exact execLbasis_endsAlike h
  | linterp => exact execLinterp_endsAlike h
  | linterp0 => exact execLinterp0_endsAlike h
  | pbuild => exact execPbuild_endsAlike h
  | split => exact execSplit_endsAlike h
  | combine => exact execCombine_endsAlike h

/-- Settles O26: commands that end alike agree in STATUS and ERRCODE and, on success, in all they write. -/
theorem resultDependsOnReadsAlone : Obligations.ResultDependsOnReadsAlone := by
  intro i s u h
  have hend := exec_endsAlike h
  generalize exec i s = o, exec i u = o' at hend
  cases hend with
  | fault f => rfl
  | raise c t v => exact ⟨rfl, rfl, fun h => absurd h (causeCode_ne_zero c)⟩
  | finish t v hres hslen helem => exact ⟨rfl, rfl, fun _ => ⟨hres, hslen, fun l _ hl => helem l hl⟩⟩

end Sys2Proof.Machine
end

section
/-!
SUPPORT. What a command and a reset leave of the registers and buffers (spec/10_state.md): STATUS and ERRCODE at a command's
end (R27, R28), the frame of every command (R46, its column of writes), and the state after reset (R45).
-/

namespace Sys2Proof.Machine

open Sys2Proof.Spec

/-! ### STATUS and ERRCODE of a command that ended (R28) -/

theorem kindCode_ne_zero (k : Kind) : kindCode k ≠ 0 := by cases k <;> decide

/-- Settles O22: a success leaves KIND and ERRCODE 0, an error neither. -/
theorem successAndErrorStatus : Obligations.SuccessAndErrorStatus := by
  intro i s t h
  obtain ⟨s', -, ⟨c, rfl⟩ | ⟨w, -, rfl⟩⟩ := exec_eq_next h
  · have hcode : (failWith s' c).errcode ≠ 0x00 := causeCode_ne_zero c
    have hkind : statusKind (failWith s' c).status ≠ 0 := by
      rw [failWith_status, statusKind_statusDone]
      exact kindCode_ne_zero _
    exact ⟨iff_of_false hkind hcode, fun h => absurd h hcode, statusIsDone_statusDone _⟩
  · exact ⟨iff_of_true (statusKind_statusDone 0) rfl, fun _ => rfl, statusIsDone_statusDone 0⟩

/-! ### The registers a command writes -/

/-- A command writes no field of the state but STATUS, ERRCODE, RES, SLEN, the buffers and the randomness port. -/
theorem exec_frame {i : Instr} {s t : State} (h : exec i s = .next t) :
    t = { s with
      status := t.status, errcode := t.errcode, res := t.res, slen := t.slen, mem := t.mem, rng := t.rng,
      rngLog := t.rngLog } := by
  obtain ⟨s', ⟨news, -, hs⟩, ⟨c, rfl⟩ | ⟨w, hw, rfl⟩⟩ := exec_eq_next h
  · rw [hs]; rfl
  · rw [hs] at hw
    cases hw <;> rfl

theorem Writes.res_eq {s s' w : State} {i : Instr} (h : Writes s s' i w) (hi : writesRes i = false) : w.res = s'.res := by
  cases h with
  | res i v hne =>
    obtain ⟨hxdistinct, hpbuild, hsplit, hcombine⟩ := hne
    cases i <;> contradiction
  | _ => rfl

theorem exec_res {i : Instr} {s t : State} (h : exec i s = .next t) (hi : writesRes i = false) : t.res = s.res := by
  obtain ⟨s', hs, ⟨c, rfl⟩ | ⟨w, hw, rfl⟩⟩ := exec_eq_next h
  · exact hs.res_eq
  · exact (hw.res_eq hi).trans hs.res_eq

theorem Writes.slen_eq {s s' w : State} {i : Instr} (h : Writes s s' i w) (hi : i ≠ .combine) : w.slen = s'.slen := by
  cases h with
  | combine => contradiction
  | _ => rfl

theorem exec_slen {i : Instr} {s t : State} (h : exec i s = .next t) (hi : i ≠ .combine) : t.slen = s.slen := by
  obtain ⟨s', hs, ⟨c, rfl⟩ | ⟨w, hw, rfl⟩⟩ := exec_eq_next h
  · exact hs.slen_eq
  · exact (hw.slen_eq hi).trans hs.slen_eq

/-! ### The randomness port of a command that draws nothing (R87) -/

/-- If the outcome is a next state, its randomness port is that of `s`. -/
def PortKept (s : State) (o : Outcome) : Prop := ∀ t, o = .next t → t.rng = s.rng ∧ t.rngLog = s.rngLog

theorem PortKept.finish {s w : State} (hrng : w.rng = s.rng) (hlog : w.rngLog = s.rngLog) : PortKept s (finish w) := by
  rintro _ ⟨⟩
  exact ⟨hrng, hlog⟩

theorem PortKept.raise (s : State) (c : Cause) : PortKept s (raise s c) := by
  rintro _ ⟨⟩
  exact ⟨rfl, rfl⟩

theorem PortKept.finishResOr (s : State) (c : Cause) (o : Option Byte) : PortKept s (finishResOr s c o) := by
  cases o with
  | none => exact .raise s c
  | some v => exact .finish rfl rfl

/-- Only PBUILD and SPLIT make requests. -/
theorem exec_portKept {i : Instr} (s : State) (hpbuild : i ≠ .pbuild) (hsplit : i ≠ .split) : PortKept s (exec i s) := by
  cases i with
  | pbuild | split => contradiction
  | gfadd | gfsub | gfxtime | gfmul | gfpow | peval => exact .finish rfl rfl
  | gfinv | gfdiv => exact .finishResOr s _ _
  | xdistinct =>
    simp only [exec, execXdistinct]
    split
    · exact .finish rfl rfl
    · exact .raise s _
  | lbasis =>
    simp only [exec, execLbasis]
    split
    · exact .raise s _
    · exact .finishResOr s _ _
  | linterp | linterp0 =>
    simp only [exec, execLinterp, execLinterp0]
    split
    · exact .raise s _
    · exact .finishResOr s _ _
  | combine =>
    simp only [exec, execCombine]
    split
    · exact .raise s _
    · split
      · exact .raise s _
      · exact .finish rfl rfl

/-! ### The buffer bytes a command writes (R46) -/

/-- The address belongs to an element that command `i`, launched in `s`, may write. -/
def WrittenAddr (i : Instr) (s : State) (a : Nat) : Prop :=
  ∃ l j, locAt s.lmax.val a = some (l, j) ∧ writesElement i s l

theorem writtenAddr_addr {i : Instr} {s : State} {l : Loc} {j : Nat} (hw : writesElement i s l)
    (hl : l.wf s.lmax.val = true) (hj : j < l.width) : WrittenAddr i s (l.addr + j) :=
  ⟨l, j, locAt_addr s.lmax hl hj, hw⟩

/-- The addresses of the slots 0 to N-1 belong to elements SPLIT writes, where its checks passed (R185). -/
theorem writtenAddr_of_slotAddr {s : State} {q a : Nat} (hc : splitCheck s = none) (hq : q < s.n.toNat)
    (h : SlotAddr s.slen.toNat q a) : WrittenAddr .split s a := by
  obtain ⟨-, hslen, -, -, hn⟩ := splitCheck_eq_none hc
  have hq255 : q < 255 := by omega
  rcases h with rfl | ⟨hle, hlt⟩ | ⟨hle, hlt⟩
  · exact writtenAddr_addr (l := .shIdx q) (j := 0) hq (by simpa [Loc.wf] using hq255) Nat.zero_lt_one
  · obtain ⟨j, rfl⟩ := Nat.exists_eq_add_of_le hle
    exact writtenAddr_addr (l := .shLen q) hq (by simpa [Loc.wf] using hq255) (Nat.lt_of_add_lt_add_left hlt)
  · obtain ⟨p, rfl⟩ := Nat.exists_eq_add_of_le hle
    have hp : p < s.slen.toNat := Nat.lt_of_add_lt_add_left hlt
    refine writtenAddr_addr (l := .shData q p) (j := 0) ⟨hq, hp⟩ ?_ Nat.zero_lt_one
    simp only [Loc.wf, Bool.and_eq_true, decide_eq_true_eq]
    omega

theorem memLookup_writeSlot_of_not_slotAddr {m : Memory} {i a : Nat} {x : Byte} {len : Half} {bytes : List Byte}
    (h : ¬ SlotAddr bytes.length i a) : memLookup (writeSlot m i x len bytes) a = memLookup m a := by
  simp only [SlotAddr, not_or] at h
  obtain ⟨hidx, hlen, hdata⟩ := h
  unfold writeSlot
  rw [memLookup_memInsertList_of_outside _ _ (by omega),
    memLookup_memInsertList_of_outside _ _ (by simp only [halfBytes, List.length_cons, List.length_nil]; omega),
    memLookup_memInsert_of_ne _ _ hidx]

/-- Writing the slots from `i` on leaves every address outside those slots. -/
theorem memLookup_writeSlots_of_not_slotAddr {m : Memory} {i a : Nat} {len : Half} {polys : List (List Byte)}
    {xs : List Byte} (h : ∀ q < xs.length, ¬ SlotAddr polys.length (i + q) a) :
    memLookup (writeSlots m i len polys xs) a = memLookup m a := by
  induction xs generalizing m i with
  | nil => rfl
  | cons x xs ih =>
    have hfirst : ¬ SlotAddr (polys.map fun c => horner c x).length i a := by
      simpa using h 0 (Nat.succ_pos _)
    have hrest : ∀ q < xs.length, ¬ SlotAddr polys.length (i + 1 + q) a := fun q hq => by
      rw [Nat.add_assoc, Nat.add_comm 1]
      exact h (q + 1) (Nat.succ_lt_succ hq)
    exact (ih hrest).trans (memLookup_writeSlot_of_not_slotAddr hfirst)

theorem bufferByte_setMem_of_memLookup {s : State} {m : Memory} {a : Nat} (h : memLookup m a = memLookup s.mem a) :
    bufferByte (setMem s m) a = bufferByte s a := by
  simp [bufferByte, h]

/-- The writes of a command leave every byte outside the elements of the command's row. -/
theorem Writes.bufferByte_eq {s s' w : State} {i : Instr} {a : Nat} (h : Writes s s' i w) (ha : ¬ WrittenAddr i s a) :
    bufferByte w a = bufferByte s' a := by
  cases h with
  | res | xdistinct => rfl
  | pbuild c hlen =>
    refine bufferByte_setMem_of_memLookup (memLookup_memInsertList_of_outside _ _ ?_)
    by_contra hin
    obtain ⟨k, rfl⟩ := Nat.exists_eq_add_of_le (show Loc.addr (.coef 0) ≤ a by omega)
    have hk : k ≤ s.deg.toNat := by omega
    have hdeg := s.deg.isLt
    exact ha (writtenAddr_addr (l := .coef k) (j := 0) hk (by simp only [Loc.wf, decide_eq_true_eq]; omega)
      Nat.zero_lt_one)
  | split polys hlen hc =>
    refine bufferByte_setMem_of_memLookup (memLookup_writeSlots_of_not_slotAddr fun q hq hslot => ha ?_)
    rw [splitXs_length] at hq
    rw [hlen, Nat.zero_add] at hslot
    exact writtenAddr_of_slotAddr hc hq hslot
  | combine bytes hlen hc =>
    obtain ⟨-, -, hle, -⟩ := combineCheck_eq_none hc
    refine bufferByte_setMem_of_memLookup (s := setSlen s' _) (memLookup_memInsertList_of_outside _ _ ?_)
    by_contra hin
    obtain ⟨p, rfl⟩ := Nat.exists_eq_add_of_le (show Loc.addr (.sec 0) ≤ a by omega)
    have hp : p < (shareLen s 0).toNat := by omega
    exact ha (writtenAddr_addr (l := .sec p) (j := 0) hp (by simp only [Loc.wf, decide_eq_true_eq]; omega)
      Nat.zero_lt_one)

/-- A command that ends, in an error or not, leaves every buffer byte outside the elements of its row. -/
theorem exec_otherElementsSame {i : Instr} {s t : State} (h : exec i s = .next t) : OtherElementsSame i s t := by
  intro a hother
  have ha : ¬ WrittenAddr i s a := fun ⟨l, j, hl, hw⟩ => hother l j hl hw
  obtain ⟨s', hs, ⟨c, rfl⟩ | ⟨w, hw, rfl⟩⟩ := exec_eq_next h
  · exact hs.bufferByte_eq a
  · exact (hw.bufferByte_eq ha).trans (hs.bufferByte_eq a)

/-- Settles O25: the frame of every command, register by register and byte by byte. -/
theorem writesOfEachCommand : Obligations.WritesOfEachCommand := fun _ s t h =>
  ⟨exec_res h, exec_slen h, exec_otherElementsSame h, fun hpbuild hsplit => exec_portKept s hpbuild hsplit t h⟩

/-! ### The operands no command writes (R21, R22, R29 to R33, R36, R37) -/

/-- An existing one-byte element outside the command's row keeps its byte. -/
theorem exec_elemByte {i : Instr} {s t : State} {l : Loc} (h : exec i s = .next t) (hl : l.wf s.lmax.val = true)
    (hwidth : 0 < l.width) (hw : ¬ writesElement i s l) : elemByte t l = elemByte s l := by
  refine exec_otherElementsSame h l.addr fun l' j hl' => ?_
  rw [← Nat.add_zero l.addr, locAt_addr s.lmax hl hwidth] at hl'
  cases hl'
  exact hw

theorem not_writesElement_xs (i : Instr) (s : State) (j : Nat) : ¬ writesElement i s (.xs j) := by cases i <;> exact id

theorem not_writesElement_ys (i : Instr) (s : State) (j : Nat) : ¬ writesElement i s (.ys j) := by cases i <;> exact id

theorem exec_sameOperands {i : Instr} {s t : State} (h : exec i s = .next t) : SameOperands s t := by
  rw [exec_frame h]
  exact ⟨rfl, rfl, rfl, rfl, rfl, rfl, rfl, rfl, rfl, rfl⟩

/-- Settles O24: the operand registers by `exec_frame`, XS and YS because no command's row names them. -/
theorem operandsNeverWrittenByEngine : Obligations.OperandsNeverWrittenByEngine := by
  intro i s t h
  refine ⟨exec_sameOperands h, fun j hj => ⟨?_, ?_⟩, ?_⟩
  · exact exec_elemByte h (by simpa [Loc.wf] using hj) Nat.zero_lt_one (not_writesElement_xs i s j)
  · exact exec_elemByte h (by simpa [Loc.wf] using hj) Nat.zero_lt_one (not_writesElement_ys i s j)
  · rw [exec_frame h]
    exact ⟨rfl, rfl, rfl, rfl⟩

/-! ### Reset (R45, spec/70_reset_and_hazards.md R250) -/

theorem bufferByte_of_mem_nil {s : State} (h : s.mem = []) (a : Nat) :
    bufferByte s a = Config.powerOnByte s.epoch a := by
  simp [bufferByte, h, memLookup, unlistedByte]

theorem afterReset_reset : AfterReset State.reset 0 :=
  ⟨rfl, rfl, rfl, rfl, rfl, rfl, rfl, rfl, rfl, rfl, rfl, rfl, rfl, rfl, bufferByte_of_mem_nil rfl⟩

theorem afterReset_resetBlock (s : State) : AfterReset (resetBlock s) (s.epoch + 1) :=
  ⟨rfl, rfl, rfl, rfl, rfl, rfl, rfl, rfl, rfl, rfl, rfl, rfl, rfl, rfl, bufferByte_of_mem_nil rfl⟩

theorem step_reset {s : State} {moves : List HostMove} (h : s.host = .reset :: moves) :
    step s = .next (resetBlock (setHost s moves)) := by
  simp [step, fetch, h, acceptMove]

theorem exec_split_of_check {s : State} {c : Cause} (h : splitCheck s = some c) : exec .split s = .next (failWith s c) := by
  simp [exec, execSplit, h, raise]

theorem exec_combine_of_check {s : State} {c : Cause} (h : combineCheck s = some c) :
    exec .combine s = .next (failWith s c) := by
  simp [exec, execCombine, h, raise]

theorem splitCheck_of_slen_zero {s : State} (h : s.slen = 0) : splitCheck s = some .valSecretEmpty := if_pos h

theorem combineCheck_of_scnt_zero {s : State} (h : s.scnt = 0) : combineCheck s = some .valSharesEmpty :=
  if_pos (by simp [h])

/-- Settles O16: the reset state and a reset move leave R45's table, whose SLEN and SCNT of 0 fail SPLIT's and COMBINE's
first check. -/
theorem resetLeavesReset : Obligations.ResetLeavesReset := by
  refine ⟨afterReset_reset, fun s moves h => ?_, fun t epoch ht => ?_⟩
  · exact ⟨_, step_reset h, afterReset_resetBlock _, rfl, rfl⟩
  · obtain ⟨-, -, -, -, -, -, -, -, -, -, -, -, hscnt, hslen, -⟩ := ht
    exact ⟨exec_split_of_check (splitCheck_of_slen_zero hslen), exec_combine_of_check (combineCheck_of_scnt_zero hscnt)⟩

/-- Settles O17: every register is 0, no byte is listed and no request is closed. -/
theorem resetMeetsInvariant : Obligations.ResetMeetsInvariant := by
  have hlmax : 1 ≤ Config.lmax.val := by decide
  have hstatus : StatusInv State.reset := ⟨rfl, rfl, fun _ => ⟨rfl, rfl, rfl⟩⟩
  exact ⟨hlmax, hstatus, rfl, ⟨memWf_reset, nofun⟩, nofun⟩

end Sys2Proof.Machine
end

section
/-!
SUPPORT. The host address map and the host port (spec/20_memory.md R61 to R72): decoding an address inverts the map, what a
read of a location returns and what a write to it changes, and from these the reads, the writes, MemRead and MemWrite.
-/

namespace Sys2Proof.Machine

open Sys2Proof.Spec

/-! ### The address map (R63, R71) -/

theorem registerAt_eq_some {lmax a j : Nat} {l : Loc} (h : registerAt a = some (l, j)) :
    l.wf lmax = true ∧ j < l.width ∧ a = l.addr + j := by
  unfold registerAt at h
  split at h <;> cases h <;> exact ⟨rfl, by decide, rfl⟩

theorem bufferAt_eq_some {lmax a j : Nat} {l : Loc} (h : bufferAt lmax a = some (l, j)) :
    l.wf lmax = true ∧ j < l.width ∧ a = l.addr + j := by
  unfold bufferAt at h
  split_ifs at h <;> cases h <;> simp only [Loc.wf, Loc.width, Loc.addr, Bool.and_eq_true, decide_eq_true_eq] <;> omega

/-- Whatever an address decodes to is an existing location, and the address is that of the location's byte. -/
theorem locAt_eq_some {lmax a j : Nat} {l : Loc} (h : locAt lmax a = some (l, j)) :
    l.wf lmax = true ∧ j < l.width ∧ a = l.addr + j := by
  unfold locAt at h
  split at h
  · exact registerAt_eq_some h
  · exact bufferAt_eq_some h

/-- Settles O4: `locAt_addr` one way, `locAt_eq_some` the other. -/
theorem addressMapRoundTrip : Obligations.AddressMapRoundTrip :=
  ⟨fun _ _ _ _ => ⟨rfl, rfl, rfl, rfl, rfl, rfl, rfl⟩,
    fun lmax => ⟨fun _ hl _ hj => locAt_addr lmax hl hj, fun _ _ _ h => locAt_eq_some h⟩⟩

theorem registerAt_eq_none_iff {a : Nat} (ha : a < 0x0100) : registerAt a = none ↔ a = 0x11 ∨ 0x14 ≤ a := by
  unfold registerAt
  split
  case h_20 => simp only [true_iff, imp_false] at *; omega
  all_goals simp

theorem bufferAt_eq_none_iff (lmax : Lmax) {a : Nat} (ha : 0x0100 ≤ a) : bufferAt lmax.val a = none ↔
    (a = 0x02FF ∨ a = 0x03FF ∨ (0x04FF ≤ a ∧ a ≤ 0x05FF) ∨ (0x07FE ≤ a ∧ a ≤ 0xFFFF) ∨
      (0x00010000 + lmax.val ≤ a ∧ a ≤ 0x00FFFFFF) ∨ (0x01000000 ≤ a ∧ a < 0x01FF0000 ∧ lmax.val ≤ a % 0x10000) ∨
      0x01FF0000 ≤ a) := by
  have hlmax := lmax.isLt
  unfold bufferAt
  split_ifs <;> simp only [false_iff, true_iff] <;> omega

/-- Settles O5: the gaps among the registers below 0x100 and those of the buffers above. -/
theorem unmappedAddressesAreListed : Obligations.UnmappedAddressesAreListed := by
  intro lmax a _
  unfold locAt
  split
  · next ha => rw [registerAt_eq_none_iff ha]; omega
  · next ha => rw [bufferAt_eq_none_iff lmax (by omega)]; omega

/-- Two bytes of existing locations that share an address are one byte of one location. -/
theorem loc_eq_of_addr_eq {lmax : Lmax} {l l' : Loc} {j j' : Nat} (hl : l.wf lmax.val = true) (hj : j < l.width)
    (hl' : l'.wf lmax.val = true) (hj' : j' < l'.width) (h : l.addr + j = l'.addr + j') : l = l' ∧ j = j' := by
  have e := locAt_addr lmax hl hj
  rw [h, locAt_addr lmax hl' hj'] at e
  cases e
  exact ⟨rfl, rfl⟩

/-- Every host address of an existing location has 32 bits (R61). -/
theorem toNat_ofNat_addr {lmax : Lmax} {l : Loc} (hl : l.wf lmax.val = true) :
    (BitVec.ofNat 32 l.addr).toNat = l.addr := by
  have hlmax := lmax.isLt
  refine Nat.mod_eq_of_lt ?_
  cases l <;> simp only [Loc.wf, Loc.addr, Bool.and_eq_true, decide_eq_true_eq] at hl ⊢ <;> omega

/-! ### Bytes of a register (R67, R68) -/

theorem getLsbD_putByte {w : Nat} (v : BitVec w) (j : Nat) (b : Byte) (m : Nat) : (putByte v j b).getLsbD m =
    if 8 * j ≤ m ∧ m < 8 * j + 8 then decide (m < w) && b.getLsbD (m - 8 * j) else v.getLsbD m := by
  have hmask : (0xFF#w).getLsbD (m - 8 * j) = (decide (m - 8 * j < w) && decide (m - 8 * j < 8)) := by
    rw [BitVec.getLsbD_ofNat]
    exact congrArg _ (Nat.testBit_two_pow_sub_one 8 _)
  have hv : w ≤ m → v.getLsbD m = false := BitVec.getLsbD_of_ge v m
  have hb : 8 ≤ m - 8 * j → b.getLsbD (m - 8 * j) = false := BitVec.getLsbD_of_ge b _
  simp only [putByte, BitVec.getLsbD_or, BitVec.getLsbD_and, BitVec.getLsbD_not, BitVec.getLsbD_shiftLeft,
    BitVec.getLsbD_setWidth, hmask]
  grind

theorem getByte_putByte_self {w j : Nat} (v : BitVec w) (b : Byte) (hj : 8 * j + 8 ≤ w) :
    getByte (putByte v j b) j = b := by
  apply BitVec.eq_of_getLsbD_eq
  intro i hi
  simp only [getByte, BitVec.getLsbD_extractLsb', getLsbD_putByte]
  rw [if_pos (by omega)]
  simp [hi, show 8 * j + i < w by omega]

theorem getByte_putByte_of_ne {w j k : Nat} (v : BitVec w) (b : Byte) (h : k ≠ j) :
    getByte (putByte v j b) k = getByte v k := by
  apply BitVec.eq_of_getLsbD_eq
  intro i hi
  simp only [getByte, BitVec.getLsbD_extractLsb', getLsbD_putByte]
  rw [if_neg (by omega)]

/-! ### Reading and writing one byte of a location (R66) -/

/-- Byte `j` of location `l`, as a host read returns it (R66). -/
def readLoc (s : State) : Loc → Nat → Byte
  | .cmd, _ => 0x00
  | .status, _ => statusRead s.status
  | .errcode, _ => s.errcode
  | .res, _ => s.res
  | .opa, _ => s.opa
  | .opb, _ => s.opb
  | .deg, _ => s.deg
  | .ctrl, _ => ctrlKeep s.ctrl
  | .exp, j => getByte s.exp j
  | .xcnt, _ => s.xcnt
  | .ycnt, _ => s.ycnt
  | .t, _ => s.t
  | .n, _ => s.n
  | .scnt, _ => s.scnt
  | .slen, j => getByte s.slen j
  | l, j => bufferByte s (l.addr + j)

/-- The state after byte `j` of location `l` is written by the HOST (R66). -/
def writeLoc (s : State) (v : Byte) : Loc → Nat → State
  | .cmd, _ | .status, _ | .errcode, _ | .res, _ => s
  | .opa, _ => { s with opa := v }
  | .opb, _ => { s with opb := v }
  | .deg, _ => { s with deg := v }
  | .ctrl, _ => { s with ctrl := ctrlKeep v }
  | .exp, j => { s with exp := putByte s.exp j v }
  | .xcnt, _ => { s with xcnt := v }
  | .ycnt, _ => { s with ycnt := v }
  | .t, _ => { s with t := v }
  | .n, _ => { s with n := v }
  | .scnt, _ => { s with scnt := v }
  | .slen, j => { s with slen := putByte s.slen j v }
  | l, j => setMem s (memInsert s.mem (l.addr + j) v)

theorem hostByte_of_locAt {s : State} {a j : Nat} {l : Loc} (h : locAt s.lmax.val a = some (l, j)) :
    hostByte s a = some (readLoc s l j) := by
  obtain ⟨-, -, rfl⟩ := locAt_eq_some h
  unfold hostByte
  rw [h]
  cases l <;> rfl

theorem hostByte_of_unmapped {s : State} {a : Nat} (h : locAt s.lmax.val a = none) : hostByte s a = none := by
  unfold hostByte
  rw [h]

theorem hostByte_addr {s : State} {l : Loc} {j : Nat} (hl : l.wf s.lmax.val = true) (hj : j < l.width) :
    hostByte s (l.addr + j) = some (readLoc s l j) := hostByte_of_locAt (locAt_addr s.lmax hl hj)

theorem hostStore_of_locAt {s : State} {a j : Nat} {l : Loc} (v : Byte) (h : locAt s.lmax.val a = some (l, j)) :
    hostStore s a v = some (writeLoc s v l j) := by
  obtain ⟨-, -, rfl⟩ := locAt_eq_some h
  unfold hostStore
  rw [h]
  cases l <;> rfl

theorem hostStore_of_unmapped {s : State} {a : Nat} (v : Byte) (h : locAt s.lmax.val a = none) :
    hostStore s a v = none := by
  unfold hostStore
  rw [h]

theorem storesWhole_of_isBuffer {l : Loc} (hl : l.isBuffer = true) : storesWhole l = true := by
  cases l <;> first | rfl | cases hl

/-- What a host write never changes: the read-only registers and the model's own fields. -/
theorem writeLoc_frame (s : State) (v : Byte) (l : Loc) (j : Nat) :
    (writeLoc s v l j).lmax = s.lmax ∧ (writeLoc s v l j).status = s.status ∧
      (writeLoc s v l j).errcode = s.errcode ∧ (writeLoc s v l j).res = s.res ∧ (writeLoc s v l j).rng = s.rng ∧
      (writeLoc s v l j).rngLog = s.rngLog ∧ (writeLoc s v l j).epoch = s.epoch ∧
      (writeLoc s v l j).host = s.host := by
  cases l <;> exact ⟨rfl, rfl, rfl, rfl, rfl, rfl, rfl, rfl⟩

@[simp] theorem writeLoc_lmax (s : State) (v : Byte) (l : Loc) (j : Nat) : (writeLoc s v l j).lmax = s.lmax :=
  (writeLoc_frame s v l j).1

/-- A location that keeps what is written reads back the byte written (R66). -/
theorem readLoc_writeLoc_self {l : Loc} {j : Nat} (hl : storesWhole l = true) (hj : j < l.width) (s : State) (v : Byte) :
    readLoc (writeLoc s v l j) l j = v := by
  cases l with
  | cmd | status | errcode | res | ctrl => cases hl
  | opa | opb | deg | xcnt | ycnt | t | n | scnt => rfl
  | exp => exact getByte_putByte_self s.exp v (by simp only [Loc.width] at hj; omega)
  | slen => exact getByte_putByte_self s.slen v (by simp only [Loc.width] at hj; omega)
  | _ => exact bufferByte_setMem_memInsert_self s _ v

/-- Another location reads as before, unless both are elements of the buffers that share the address. -/
theorem readLoc_writeLoc_of_ne {l l' : Loc} {j j' : Nat} (s : State) (v : Byte) (hl : l' ≠ l)
    (ha : l'.addr + j' ≠ l.addr + j) : readLoc (writeLoc s v l j) l' j' = readLoc s l' j' := by
  cases l with
  | cmd | status | errcode | res => rfl
  | opa | opb | deg | ctrl | exp | xcnt | ycnt | t | n | scnt | slen =>
    cases l' <;> first | rfl | exact absurd rfl hl
  | coef | xs | ys | shIdx | shLen | sec | shData =>
    cases l' <;> first | rfl | exact bufferByte_setMem_memInsert_of_ne s v ha

/-- Another byte of the same location reads as before. -/
theorem readLoc_writeLoc_of_other_byte {l : Loc} {j j' : Nat} (s : State) (v : Byte) (hj : j < l.width)
    (hj' : j' < l.width) (hne : j' ≠ j) : readLoc (writeLoc s v l j) l j' = readLoc s l j' := by
  cases l with
  | exp => exact getByte_putByte_of_ne s.exp v hne
  | slen => exact getByte_putByte_of_ne s.slen v hne
  | shLen i => exact bufferByte_setMem_memInsert_of_ne s v (by omega)
  | _ =>
    simp only [Loc.width] at hj hj'
    omega

/-- After a host write every other address reads as before (R66). -/
theorem hostByte_writeLoc_of_ne {s : State} {a a' j : Nat} {l : Loc} (v : Byte)
    (h : locAt s.lmax.val a = some (l, j)) (ha : a' ≠ a) : hostByte (writeLoc s v l j) a' = hostByte s a' := by
  obtain ⟨-, hj, rfl⟩ := locAt_eq_some h
  have hlmax := writeLoc_lmax s v l j
  cases h' : locAt s.lmax.val a' with
  | none => rw [hostByte_of_unmapped h', hostByte_of_unmapped (by rwa [hlmax])]
  | some lj =>
    obtain ⟨l', j'⟩ := lj
    rw [hostByte_of_locAt h', hostByte_of_locAt (s := writeLoc s v l j) (by rwa [hlmax])]
    obtain ⟨-, hj', rfl⟩ := locAt_eq_some h'
    by_cases hl : l' = l
    · subst hl
      rw [readLoc_writeLoc_of_other_byte s v hj hj' (by omega)]
    · rw [readLoc_writeLoc_of_ne s v hl ha]

/-- After a host write to a location that keeps what is written, the address reads the byte written (R66). -/
theorem hostByte_writeLoc_self {s : State} {a j : Nat} {l : Loc} (v : Byte) (h : locAt s.lmax.val a = some (l, j))
    (hl : storesWhole l = true) : hostByte (writeLoc s v l j) a = some v := by
  obtain ⟨-, hj, -⟩ := locAt_eq_some h
  rw [hostByte_of_locAt (l := l) (j := j) (by rwa [writeLoc_lmax]), readLoc_writeLoc_self hl hj]

@[simp] theorem hostByte_setHost (s : State) (ms : List HostMove) (a : Nat) :
    hostByte (setHost s ms) a = hostByte s a := rfl

@[simp] theorem hostByte_respond (s : State) (r : HostResponse) (a : Nat) :
    hostByte (respond s r) a = hostByte s a := rfl

/-! ### One move of the HOST (R62, R64, R65, R72) -/

theorem step_read {s : State} {a : Addr} {moves : List HostMove} (h : s.host = .read a :: moves) :
    step s = .next (busRead (setHost s moves) a.toNat) := by
  simp [step, fetch, h, acceptMove]

theorem step_write {s : State} {a : Addr} {v : Byte} {moves : List HostMove} (h : s.host = .write a v :: moves)
    (ha : a.toNat ≠ Loc.addr .cmd) : step s = .next (busWrite (setHost s moves) a.toNat v) := by
  simp [step, fetch, h, acceptMove, ha]

theorem step_command {s : State} {a : Addr} {b : Byte} {i : Instr} {moves : List HostMove}
    (h : s.host = .write a b :: moves) (ha : a.toNat = Loc.addr .cmd) (hb : decode b = .instr i) :
    step s = exec i (respond (setHost s moves) (.writeDone false)) := by
  simp [step, fetch, h, acceptMove, ha, launchByte, hb]

/-- Settles O7: `step_command` at address 0. -/
theorem stepRunsDecodedCommand : Obligations.StepRunsDecodedCommand := fun _ _ _ _ h hb => step_command h rfl hb

/-- Settles O9: a read shows the byte, or the error response, and changes no more. -/
theorem hostReadHasNoSideEffect : Obligations.HostReadHasNoSideEffect := by
  intro s a moves h
  rw [step_read h, busRead_eq_respond, hostByte_setHost]
  refine ⟨fun b hb => ?_, fun hu => ?_⟩
  · rw [hb]; rfl
  · rw [hostByte_of_unmapped hu]; rfl

theorem locAt_cmd (lmax : Nat) : locAt lmax (Loc.addr .cmd) = some (.cmd, 0) := rfl

/-- Settles O12: a store to an unmapped address is none, so only the error response is shown. -/
theorem unmappedWriteChangesNothing : Obligations.UnmappedWriteChangesNothing := by
  intro s a v moves h hu
  have ha : a.toNat ≠ Loc.addr .cmd := fun e => by rw [e, locAt_cmd] at hu; cases hu
  rw [step_write h ha, busWrite, hostStore_of_unmapped (s := setHost s moves) v hu]
  rfl

/-- A host write to a mapped address other than CMD writes the byte of its location and is answered ok. -/
theorem step_write_of_locAt {s : State} {a : Addr} {v : Byte} {moves : List HostMove} {l : Loc} {j : Nat}
    (h : s.host = .write a v :: moves) (hl : locAt s.lmax.val a.toNat = some (l, j)) (hcmd : l ≠ .cmd) :
    step s = .next (respond (writeLoc (setHost s moves) v l j) (.writeDone false)) := by
  have ha : a.toNat ≠ Loc.addr .cmd := fun e => by rw [e, locAt_cmd] at hl; cases hl; exact hcmd rfl
  rw [step_write h ha, busWrite, hostStore_of_locAt (s := setHost s moves) v hl]

theorem ctrlKeep_eq_and (v : Byte) : ctrlKeep v = v &&& 0x01 := by
  revert v
  decide

/-- Settles O11: the byte of the location is written (`writeLoc`), and each kind of location reads back as R66 says. -/
theorem hostWriteThenRead : Obligations.HostWriteThenRead := by
  intro s a v moves l j h hl hcmd
  obtain ⟨hlmax, hstatus, herrcode, hres, hrng, hrngLog, hepoch, hhost⟩ := writeLoc_frame (setHost s moves) v l j
  refine ⟨_, step_write_of_locAt h hl hcmd, rfl, hhost, fun hs => ?_, ?_, ?_, fun a' ha => ?_, hstatus, herrcode, hres,
    hrng, hrngLog, hepoch, hlmax⟩
  · exact hostByte_writeLoc_self (s := setHost s moves) v hl hs
  · rintro rfl
    rw [hostByte_respond, hostByte_of_locAt (s := writeLoc (setHost s moves) v .ctrl j) hl]
    simp [readLoc, writeLoc, ctrlKeep_eq_and, BitVec.and_assoc]
  · rintro (rfl | rfl | rfl) <;> rfl
  · exact hostByte_writeLoc_of_ne (s := setHost s moves) v hl ha

/-- A buffer address that the HOST reads alike in two states, the ENGINE reads alike (R60). -/
theorem bufferByte_eq_of_hostByte_eq {s t : State} {a j : Nat} {l : Loc} (hlmax : t.lmax = s.lmax)
    (hl : locAt s.lmax.val a = some (l, j)) (hbuf : l.isBuffer = true) (h : hostByte t a = hostByte s a) :
    bufferByte t a = bufferByte s a := by
  rw [hostByte_eq_bufferByte hl hbuf, hostByte_eq_bufferByte (s := t) (by rwa [hlmax]) hbuf] at h
  exact Option.some.inj h

/-- Settles O13: the HOST and the ENGINE read a buffer byte alike, and another element has another address. -/
theorem engineReadsWhatHostWrote : Obligations.EngineReadsWhatHostWrote := by
  intro s l v moves hl hbuf hwidth h
  have hpos : 0 < l.width := by omega
  have hloc : locAt s.lmax.val l.addr = some (l, 0) := locAt_addr s.lmax hl hpos
  have haddr := toNat_ofNat_addr hl
  have hcmd : l ≠ .cmd := by rintro rfl; cases hbuf
  obtain ⟨t, hstep, -, -, hself, -, -, hother, -, -, -, -, -, -, hlmax⟩ :=
    hostWriteThenRead s _ v moves l 0 h (haddr.symm ▸ hloc) hcmd
  rw [haddr] at hself hother
  -- A byte of another buffer element has another address, so the HOST reads it as before.
  have hkept : ∀ {l' : Loc} {j : Nat}, l'.wf s.lmax.val = true → l'.isBuffer = true → j < l'.width → l' ≠ l →
      bufferByte t (l'.addr + j) = bufferByte s (l'.addr + j) := fun hl' hbuf' hj hne =>
    bufferByte_eq_of_hostByte_eq hlmax (locAt_addr s.lmax hl' hj) hbuf' <|
      hother _ fun e => hne (loc_eq_of_addr_eq hl' hj hl hpos e).1
  refine ⟨t, hstep, ?_, fun l' hl' hbuf' hwidth' hne => ?_, fun j hj => ?_⟩
  · have hread := hself (storesWhole_of_isBuffer hbuf)
    rw [hostByte_eq_bufferByte (s := t) (by rwa [hlmax]) hbuf] at hread
    exact Option.some.inj hread
  · exact hkept (j := 0) hl' hbuf' (by omega) hne
  · have hwf : (Loc.shLen j).wf s.lmax.val = true := by simpa [Loc.wf] using hj
    have hne : Loc.shLen j ≠ l := by rintro rfl; cases hwidth
    exact congrArg₂ (fun hi lo : Byte => hi ++ lo) (hkept (j := 1) hwf rfl Nat.one_lt_two hne)
      (hkept (j := 0) hwf rfl Nat.zero_lt_two hne)

/-! ### Little-endian values (R67, R70) -/

/-- Bytes that are the base-256 digits of a value make up the value, as far as they go. -/
theorem sumBytes_of_digits {f : Nat → Byte} {v n : Nat} (h : ∀ k < n, (f k).toNat = v / 256 ^ k % 256) :
    sumBytes f n = v % 256 ^ n := by
  induction n with
  | zero => simp [sumBytes, Nat.mod_one]
  | succ n ih =>
    rw [sumBytes, ih fun k hk => h k (by omega), h n (by omega), Nat.mod_pow_succ, Nat.mul_comm]

theorem sumBytes_succ' (f : Nat → Byte) (n : Nat) :
    sumBytes f (n + 1) = (f 0).toNat + 256 * sumBytes (fun k => f (k + 1)) n := by
  induction n with
  | zero => simp [sumBytes]
  | succ n ih => rw [sumBytes, ih, sumBytes, pow_succ]; ring

theorem toNat_natByte (v j : Nat) : (natByte v j).toNat = v / 256 ^ j % 256 := rfl

theorem toNat_getByte {w : Nat} (v : BitVec w) (j : Nat) : (getByte v j).toNat = v.toNat / 256 ^ j % 256 := by
  rw [getByte, BitVec.extractLsb'_toNat, Nat.shiftRight_eq_div_pow, pow_mul]
  rfl

/-- The bytes of a register make up its content (R67). -/
theorem sumBytes_getByte {w n : Nat} (v : BitVec w) (h : 2 ^ w ≤ 256 ^ n) : sumBytes (getByte v) n = v.toNat := by
  rw [sumBytes_of_digits fun k _ => toNat_getByte v k, Nat.mod_eq_of_lt (v.isLt.trans_le h)]

/-- Dropping the lowest byte of a value moves every byte down by one. -/
theorem natByte_div (v k : Nat) : natByte (v / 256) k = natByte v (k + 1) := by
  rw [natByte, natByte, Nat.div_div_eq_div_mul, pow_succ']

/-- Byte `k` of a value is its bits 8k+7:8k (R70). -/
theorem natByte_eq_shiftRight (v k : Nat) : natByte v k = BitVec.ofNat 8 (v >>> (8 * k) &&& 0xFF) := by
  apply BitVec.eq_of_toNat_eq
  rw [toNat_natByte, Nat.shiftRight_eq_div_pow, pow_mul, Nat.and_two_pow_sub_one_eq_mod _ 8, BitVec.toNat_ofNat]
  exact (Nat.mod_mod _ _).symm

/-! ### MemRead and MemWrite (R70) -/

theorem bytesValue_eq_sumBytes {s : State} {a n : Nat} {f : Nat → Byte} (h : ∀ k < n, hostByte s (a + k) = some (f k)) :
    bytesValue s a n = some (sumBytes f n) := by
  induction n generalizing a f with
  | zero => rfl
  | succ n ih =>
    have hrest : bytesValue s (a + 1) n = some (sumBytes (fun k => f (k + 1)) n) := ih fun k hk => by
      rw [Nat.add_assoc, Nat.add_comm 1]
      exact h (k + 1) (by omega)
    have hfirst : hostByte s a = some (f 0) := h 0 (by omega)
    rw [bytesValue, hfirst, hrest, sumBytes_succ']

/-- MemRead inside one location is the little-endian sum of the bytes read there. -/
theorem memRead_eq_sumBytes {s : State} {a n : Nat} {l : Loc} {f : Nat → Byte} (hn : n = 1 ∨ n = 2 ∨ n = 4)
    (hl : ∀ k < n, ∃ j, locAt s.lmax.val (a + k) = some (l, j)) (h : ∀ k < n, hostByte s (a + k) = some (f k)) :
    memRead s a n = some (sumBytes f n) := by
  rw [memRead, if_pos (inOneLocation_iff.mpr ⟨hn, l, hl⟩), bytesValue_eq_sumBytes h]

/-- Consecutive host writes at mapped addresses: each address that keeps what is written reads its byte of the value, and
the addresses outside read as before. -/
theorem storeBytes_spec {s : State} {a n : Nat} (v : Nat) (h : ∀ k < n, ∃ l j, locAt s.lmax.val (a + k) = some (l, j)) :
    ∃ t, storeBytes s a n v = some t ∧ t.lmax = s.lmax ∧
      (∀ a', (a' < a ∨ a + n ≤ a') → hostByte t a' = hostByte s a') ∧
      ∀ k < n, ∀ l j, locAt s.lmax.val (a + k) = some (l, j) → storesWhole l = true →
        hostByte t (a + k) = some (natByte v k) := by
  induction n generalizing s a v with
  | zero => exact ⟨s, rfl, rfl, fun _ _ => rfl, nofun⟩
  | succ n ih =>
    obtain ⟨l, j, hl⟩ : ∃ l j, locAt s.lmax.val a = some (l, j) := h 0 (by omega)
    obtain ⟨t, ht, hlmax, hout, hin⟩ := ih (s := writeLoc s (natByte v 0) l j) (a := a + 1) (v / 256) fun k hk => by
      rw [writeLoc_lmax, Nat.add_assoc, Nat.add_comm 1]
      exact h (k + 1) (by omega)
    rw [writeLoc_lmax] at hlmax hin
    refine ⟨t, ?_, hlmax, fun a' ha' => ?_, fun k hk l' j' hl' hs => ?_⟩
    · rw [storeBytes, hostStore_of_locAt _ hl]
      exact ht
    · rw [hout a' (by omega), hostByte_writeLoc_of_ne _ hl (by omega)]
    · cases k with
      | zero =>
        obtain ⟨rfl, rfl⟩ : l = l' ∧ j = j' := by simpa [hl] using hl'
        rw [Nat.add_zero, hout a (by omega), hostByte_writeLoc_self _ hl hs]
      | succ k =>
        rw [← Nat.add_assoc, Nat.add_right_comm] at hl' ⊢
        rw [hin k (by omega) l' j' hl' hs, natByte_div]

/-- Settles O14: inside one location by the two lemmas above, elsewhere both are none by definition. -/
theorem memReadIsLittleEndianSum : Obligations.MemReadIsLittleEndianSum := by
  intro s a n
  refine ⟨fun hn ⟨l, hl⟩ => ⟨memRead_eq_sumBytes hn hl fun k hk => ?_, fun v => ?_⟩, fun h => ?_⟩
  · obtain ⟨j, hj⟩ := hl k hk
    rw [hostByte_of_locAt hj, Option.getD_some]
  · obtain ⟨t, ht, -⟩ := storeBytes_spec v fun k hk => ⟨l, hl k hk⟩
    rw [memWrite, if_pos (inOneLocation_iff.mpr ⟨hn, l, hl⟩), ht, Option.isSome_some]
  · rw [← inOneLocation_iff] at h
    exact ⟨if_neg h, fun v => if_neg h⟩

/-- Settles O15: `storeBytes_spec` at a run of bytes inside one location. -/
theorem memWriteThenMemRead : Obligations.MemWriteThenMemRead := by
  intro s l i n v hl hs hn hi
  have hloc : ∀ k < n, locAt s.lmax.val (l.addr + i + k) = some (l, i + k) := fun k hk => by
    rw [Nat.add_assoc]
    exact locAt_addr s.lmax hl (by omega)
  obtain ⟨t, ht, hlmax, hout, hin⟩ := storeBytes_spec (s := s) v fun k hk => ⟨l, i + k, hloc k hk⟩
  replace hin := fun k hk => hin k hk l (i + k) (hloc k hk) hs
  refine ⟨t, ?_, fun k hk => ?_, hout, fun hv => ?_⟩
  · rw [memWrite, if_pos (inOneLocation_iff.mpr ⟨hn, l, fun k hk => ⟨i + k, hloc k hk⟩⟩), ht]
  · rw [hin k hk, natByte_eq_shiftRight]
  · rw [memRead_eq_sumBytes (l := l) hn (fun k hk => ⟨i + k, hlmax ▸ hloc k hk⟩) hin,
      sumBytes_of_digits fun k _ => toNat_natByte v k, Nat.mod_eq_of_lt hv]

/-! ### What the registers read (R66) -/

theorem statusRead_eq (status : Byte) : (statusRead status).getLsbD 7 = status.getLsbD 7 ∧
    (statusRead status).extractLsb' 2 5 = 0 ∧ (statusRead status).extractLsb' 0 2 = status.extractLsb' 0 2 := by
  revert status
  decide

/-- A register or buffer entry of `n` bytes reads as the little-endian value of its bytes. -/
theorem memRead_addr {s : State} {l : Loc} (hl : l.wf s.lmax.val = true) (hn : l.width = 1 ∨ l.width = 2 ∨ l.width = 4) :
    memRead s l.addr l.width = some (sumBytes (readLoc s l) l.width) :=
  memRead_eq_sumBytes hn (fun k hk => ⟨k, locAt_addr s.lmax hl hk⟩) fun _ hk => hostByte_addr hl hk

theorem toNat_shareLen (s : State) (i : Nat) : (shareLen s i).toNat = sumBytes (readLoc s (.shLen i)) 2 := by
  have hlo := (bufferByte s (Loc.addr (.shLen i))).isLt
  rw [shareLen, BitVec.toNat_append, ← Nat.shiftLeft_add_eq_or_of_lt hlo, Nat.shiftLeft_eq]
  simp only [sumBytes, readLoc, Nat.add_zero]
  omega

/-- Settles O10: each register's read by its address, the wide ones as the sum of their bytes. -/
theorem registerReads : Obligations.RegisterReads := by
  intro s
  have hctrl : hostByte s 0x07 = some (s.ctrl &&& 0x01) := congrArg some (ctrlKeep_eq_and s.ctrl)
  have hexp : memRead s 0x08 4 = some s.exp.toNat :=
    (memRead_addr (l := .exp) rfl (by decide)).trans (congrArg some (sumBytes_getByte s.exp (by decide)))
  have hslen : memRead s 0x12 2 = some s.slen.toNat :=
    (memRead_addr (l := .slen) rfl (by decide)).trans (congrArg some (sumBytes_getByte s.slen (by decide)))
  refine ⟨rfl, ⟨_, rfl, statusRead_eq s.status⟩, rfl, rfl, rfl, rfl, rfl, hctrl, rfl, rfl, rfl, rfl, rfl, hexp, hslen,
    fun j hj => ?_, fun l hl hbuf hwidth => ?_⟩
  · rw [toNat_shareLen]
    exact memRead_addr (l := .shLen j) (by simpa [Loc.wf] using hj) (Or.inr (Or.inl rfl))
  · exact hostByte_eq_bufferByte (locAt_addr s.lmax (j := 0) hl (by omega)) hbuf

end Sys2Proof.Machine
end

section
/-!
SUPPORT. The field laws a polynomial's value rests on (spec/40_field.md R122, R123, R128): multiplication is additive on both
sides, commutes with doubling and is associative; so Horner's method (spec/41_polynomial.md R150) gives the direct sum.
-/

namespace Sys2Proof.Machine

open Sys2Proof.Spec

/-! ### Field sums (spec/00_scope.md R10) -/

theorem sum_congr {f g : Nat → Byte} {n : Nat} (h : ∀ k < n, f k = g k) : sum f n = sum g n := by
  induction n with
  | zero => rfl
  | succ n ih => rw [sum, sum, ih fun k hk => h k (by omega), h n (by omega)]

theorem sum_succ' (f : Nat → Byte) (n : Nat) : sum f (n + 1) = f 0 ^^^ sum (fun k => f (k + 1)) n := by
  induction n with
  | zero => simp [sum]
  | succ n ih => rw [sum, ih, sum, BitVec.xor_assoc]

theorem sum_xor (f g : Nat → Byte) (n : Nat) : sum (fun k => f k ^^^ g k) n = sum f n ^^^ sum g n := by
  induction n with
  | zero => exact (BitVec.xor_self (x := (0 : Byte))).symm
  | succ n ih => rw [sum, ih, sum, sum]; ac_rfl

/-- A map of field elements that respects addition. -/
def XorAdditive (F : Byte → Byte) : Prop := ∀ a b, F (a ^^^ b) = F a ^^^ F b

theorem XorAdditive.map_zero {F : Byte → Byte} (h : XorAdditive F) : F 0 = 0 := by
  have := h 0 0
  rwa [BitVec.xor_self, BitVec.xor_self] at this

theorem XorAdditive.map_sum {F : Byte → Byte} (h : XorAdditive F) (f : Nat → Byte) (n : Nat) :
    F (sum f n) = sum (fun k => F (f k)) n := by
  induction n with
  | zero => exact h.map_zero
  | succ n ih => rw [sum, h, ih, sum]

theorem XorAdditive.map_ite {F : Byte → Byte} (h : XorAdditive F) (c : Bool) (a : Byte) :
    F (if c then a else 0) = if c then F a else 0 := by
  cases c
  · exact h.map_zero
  · rfl

theorem XorAdditive.comp {F G : Byte → Byte} (hF : XorAdditive F) (hG : XorAdditive G) : XorAdditive (F ∘ G) :=
  fun a b => by rw [Function.comp, hG, hF]; rfl

theorem XorAdditive.iterate {F : Byte → Byte} (h : XorAdditive F) (n : Nat) : XorAdditive F^[n] := by
  induction n with
  | zero => exact fun _ _ => rfl
  | succ n ih => exact ih.comp h

/-- A byte is the sum of its bits. -/
theorem sum_bits (a : Byte) : sum (fun i => if a.getLsbD i then 1 <<< i else 0) 8 = a := by
  revert a
  decide

/-- Additive maps that agree on the eight bits agree on every byte. -/
theorem XorAdditive.ext {F G : Byte → Byte} (hF : XorAdditive F) (hG : XorAdditive G)
    (h : ∀ i < 8, F (1 <<< i) = G (1 <<< i)) (a : Byte) : F a = G a := by
  rw [← sum_bits a, hF.map_sum, hG.map_sum]
  refine sum_congr fun i hi => ?_
  rw [hF.map_ite, hG.map_ite, h i hi]

/-! ### Multiplication (R122, R123) -/

theorem ite_xor (x y : Bool) (a : Byte) :
    (if x ^^ y then a else 0) = (if x then a else 0) ^^^ (if y then a else 0) := by
  cases x <;> cases y <;> simp

theorem gfXtime_eq_xor (a : Byte) : gfXtime a = a <<< 1 ^^^ (if a.getLsbD 7 then 0x1B else 0) := by
  unfold gfXtime
  split <;> simp

theorem gfXtime_additive : XorAdditive gfXtime := by
  intro a b
  rw [gfXtime_eq_xor, gfXtime_eq_xor, gfXtime_eq_xor, BitVec.shiftLeft_xor_distrib, BitVec.getLsbD_xor, ite_xor]
  ac_rfl

theorem gfMulLoop_eq_sum (k : Nat) (a b p : Byte) :
    gfMulLoop k a b p = p ^^^ sum (fun i => if b.getLsbD i then gfXtime^[i] a else 0) k := by
  induction k generalizing a b p with
  | zero => simp [gfMulLoop, sum]
  | succ k ih =>
    rw [gfMulLoop, ih, sum_succ']
    simp only [BitVec.getLsbD_ushiftRight, Nat.add_comm 1, Function.iterate_succ_apply, Function.iterate_zero_apply]
    cases b.getLsbD 0 <;> simp [BitVec.xor_assoc]

/-- The product is the sum of the doublings of `a` that the bits of `b` select. -/
theorem gfMul_eq_sum (a b : Byte) : gfMul a b = sum (fun i => if b.getLsbD i then gfXtime^[i] a else 0) 8 := by
  rw [gfMul, gfMulLoop_eq_sum]
  exact BitVec.zero_xor

theorem gfMul_additive_left (b : Byte) : XorAdditive (gfMul · b) := by
  intro a a'
  simp only [gfMul_eq_sum, ← sum_xor]
  refine sum_congr fun i _ => ?_
  cases b.getLsbD i
  · simp
  · exact gfXtime_additive.iterate i a a'

theorem gfMul_additive_right (a : Byte) : XorAdditive (gfMul a) := by
  intro b b'
  simp only [gfMul_eq_sum, ← sum_xor, BitVec.getLsbD_xor, ite_xor]

theorem gfMul_one_right (a : Byte) : gfMul a 1 = a := by
  simp [gfMul_eq_sum, sum]

/-- Doubling a factor doubles the product: on the sixty-four pairs of bits, hence everywhere. -/
theorem gfMul_xtime_right (a b : Byte) : gfMul a (gfXtime b) = gfXtime (gfMul a b) := by
  have hbits : ∀ j < 8, ∀ i < 8, gfMul (1 <<< i) (gfXtime (1 <<< j)) = gfXtime (gfMul (1 <<< i) (1 <<< j)) := by decide
  refine ((gfMul_additive_right a).comp gfXtime_additive).ext (gfXtime_additive.comp (gfMul_additive_right a))
    (fun j hj => ?_) b
  exact (gfMul_additive_left _).ext (gfXtime_additive.comp (gfMul_additive_left _)) (hbits j hj) a

theorem gfMul_iterate_xtime_right (a b : Byte) (n : Nat) : gfMul a (gfXtime^[n] b) = gfXtime^[n] (gfMul a b) := by
  induction n with
  | zero => rfl
  | succ n ih => rw [Function.iterate_succ_apply', Function.iterate_succ_apply', gfMul_xtime_right, ih]

/-- Multiplication is associative: `c` selects doublings, and multiplying by `a` commutes with those. -/
theorem gfMul_assoc (a b c : Byte) : gfMul (gfMul a b) c = gfMul a (gfMul b c) := by
  rw [gfMul_eq_sum b c, (gfMul_additive_right a).map_sum, gfMul_eq_sum]
  refine sum_congr fun i _ => ?_
  rw [(gfMul_additive_right a).map_ite, gfMul_iterate_xtime_right]

/-! ### Polynomials (spec/41_polynomial.md R150) -/

/-- Horner's method gives the direct sum of the coefficients times the powers. -/
theorem horner_eq_sum (c : List Byte) (x : Byte) :
    horner c x = sum (fun k => gfMul (c.getD k 0) (power x k)) c.length := by
  induction c with
  | nil => rfl
  | cons b c ih =>
    have hmul : ∀ k, gfMul (gfMul (c.getD k 0) (power x k)) x = gfMul (c.getD k 0) (power x (k + 1)) :=
      fun k => gfMul_assoc _ _ x
    have hcons : horner (b :: c) x = gfMul (horner c x) x ^^^ b := rfl
    have hsum : gfMul (horner c x) x = sum (fun k => gfMul (c.getD k 0) (power x (k + 1))) c.length := by
      rw [ih, (gfMul_additive_left x).map_sum]
      exact sum_congr fun k _ => hmul k
    have hfirst : gfMul ((b :: c).getD 0 0) (power x 0) = b := gfMul_one_right b
    rw [hcons, hsum, List.length_cons, sum_succ', hfirst, BitVec.xor_comm]
    rfl

/-- A list of `d + 1` coefficients evaluates, by Horner's method, to the polynomial of degree `d` they make up. -/
theorem horner_eq_evaluate {c : List Byte} {f : Nat → Byte} {d : Nat} (hlen : c.length = d + 1)
    (h : ∀ k ≤ d, c.getD k 0 = f k) (x : Byte) : horner c x = evaluate f d x := by
  rw [horner_eq_sum, hlen, evaluate]
  exact sum_congr fun k hk => by rw [h k (by omega)]

end Sys2Proof.Machine
end

section
/-!
SUPPORT. The randomness port (spec/20_memory.md R81 to R87): what a request takes, what PBUILD and SPLIT do with a full, a
short and no answer, and that nothing but an unanswered request stops a step.
-/

namespace Sys2Proof.Machine

open Sys2Proof.Spec

/-! ### One request (R81, R83) -/

/-- Settles O46: an answered request is closed, and the source moves on to its next answer. -/
theorem rngDrawTakesFirstBytes : Obligations.RngDrawTakesFirstBytes := by
  intro s len r h
  exact ⟨closeRequest s len (min len r.length), by rw [rngDraw, h], rfl, rngAnswerAt_closeRequest s _ _⟩

/-! ### One polynomial (R165) -/

theorem buildPoly_zero (s : State) (b : Byte) : buildPoly s b 0 = .done [b] s := rfl

section
variable {s : State} {d : Nat} (hd : d ≠ 0)
include hd

theorem buildPoly_of_never (b : Byte) (h : rngAnswerAt s 0 d = .never) : buildPoly s b d = .hung := by
  rw [buildPoly, if_neg hd, rngDraw, h]

theorem buildPoly_of_short {r : List Byte} (b : Byte) (h : rngAnswerAt s 0 d = .bytes r) (hr : r.length < d) :
    buildPoly s b d = .raised .valRngShort (closeRequest s d r.length) := by
  rw [buildPoly, if_neg hd, rngDraw, h]
  simp [hr, Nat.min_eq_right hr.le]

theorem buildPoly_of_full {r : List Byte} (b : Byte) (h : rngAnswerAt s 0 d = .bytes r) (hr : d ≤ r.length) :
    buildPoly s b d = .done (b :: r.take d) (closeRequest s d d) := by
  rw [buildPoly, if_neg hd, rngDraw, h]
  simp [hr]

end

/-! ### One polynomial per byte of the secret (R183, R184) -/

theorem RngSupplies.head {s : State} {k d : Nat} {answer : Nat → List Byte} (h : RngSupplies s (k + 1) d answer) :
    rngAnswerAt s 0 d = .bytes (answer 0) ∧ d ≤ (answer 0).length := h 0 (Nat.succ_pos k)

/-- Once the first of the requests is closed, the source supplies the others. -/
theorem RngSupplies.tail {s : State} {k d : Nat} {answer : Nat → List Byte} (h : RngSupplies s (k + 1) d answer) :
    RngSupplies (closeRequest s d d) k d fun j => answer (j + 1) := fun j hj => by
  rw [rngAnswerAt_closeRequest]
  exact h (j + 1) (Nat.succ_lt_succ hj)

theorem afterRequests_closeRequest (s : State) (k d : Nat) :
    afterRequests (closeRequest s d d) k d = afterRequests s (k + 1) d := by
  simp only [afterRequests, closeRequest, List.drop_tail, List.replicate_succ', List.append_assoc, List.singleton_append]

section
variable {s s' : State} {d : Nat} {b : Byte} {bs c : List Byte} (hb : buildPoly s b d = .done c s')
include hb

theorem drawPolys_cons_of_done {s'' : State} {cs : List (List Byte)} (hbs : drawPolys s' d bs = .done cs s'') :
    drawPolys s d (b :: bs) = .done (c :: cs) s'' := by
  simp only [drawPolys, hb, hbs]

theorem drawPolys_cons_of_hung (hbs : drawPolys s' d bs = .hung) : drawPolys s d (b :: bs) = .hung := by
  simp only [drawPolys, hb, hbs]

end

/-- A source that answers every request in full: each position's polynomial is its byte and then its answer. -/
theorem drawPolys_of_supplies {s : State} {d : Nat} {bs : List Byte} {answer : Nat → List Byte} (hd : d ≠ 0)
    (h : RngSupplies s bs.length d answer) : drawPolys s d bs =
      .done (bs.mapIdx fun p b => b :: (answer p).take d) (afterRequests s bs.length d) := by
  induction bs generalizing s answer with
  | nil => rfl
  | cons b bs ih =>
    obtain ⟨hans, hlen⟩ := h.head
    rw [drawPolys_cons_of_done (buildPoly_of_full hd b hans hlen) (ih h.tail), afterRequests_closeRequest,
      List.mapIdx_cons]
    rfl

/-- A source whose answer number `p` never comes: the pass hangs there (R85). -/
theorem drawPolys_of_never {s : State} {d p : Nat} {bs : List Byte} {answer : Nat → List Byte} (hd : d ≠ 0)
    (hp : p < bs.length) (h : RngSupplies s p d answer) (hnever : rngAnswerAt s p d = .never) :
    drawPolys s d bs = .hung := by
  induction bs generalizing s p answer with
  | nil => exact absurd hp (Nat.not_lt_zero p)
  | cons b bs ih =>
    cases p with
    | zero => rw [drawPolys, buildPoly_of_never hd b hnever]
    | succ p =>
      obtain ⟨hans, hlen⟩ := h.head
      rw [← rngAnswerAt_closeRequest s d d] at hnever
      exact drawPolys_cons_of_hung (buildPoly_of_full hd b hans hlen) (ih (Nat.lt_of_succ_lt_succ hp) h.tail hnever)

/-! ### Nothing but an unanswered request stops a step (R85) -/

theorem buildPoly_ne_hung {s : State} {d : Nat} (b : Byte) (h : rngAnswerAt s 0 d ≠ .never) : buildPoly s b d ≠ .hung := by
  unfold buildPoly
  split
  · nofun
  · split
    · next hdraw => exact absurd (rngDraw_eq_none hdraw) h
    · split <;> nofun

/-- A polynomial that was built used at most one answer. -/
theorem rngAnswerAt_of_buildPoly {s s' : State} {b : Byte} {d : Nat} {c : List Byte} (h : buildPoly s b d = .done c s') :
    s' = s ∨ ∀ j len, rngAnswerAt s' j len = rngAnswerAt s (j + 1) len := by
  unfold buildPoly at h
  split at h
  · cases h
    exact Or.inl rfl
  · split at h
    · cases h
    · next hdraw =>
      obtain ⟨ans, -, -, rfl⟩ := rngDraw_eq_some hdraw
      split at h
      · cases h
      · cases h
        exact Or.inr (rngAnswerAt_closeRequest s _ _)

theorem drawPolys_ne_hung {s : State} {d : Nat} {bs : List Byte}
    (h : ∀ j < bs.length, ∀ len, rngAnswerAt s j len ≠ .never) : drawPolys s d bs ≠ .hung := by
  induction bs generalizing s with
  | nil => nofun
  | cons b bs ih =>
    unfold drawPolys
    split
    · next hb => exact absurd hb (buildPoly_ne_hung b (h 0 (Nat.succ_pos _) d))
    · nofun
    · next hb =>
      split
      · next hbs =>
        refine absurd hbs (ih fun j hj len => ?_)
        rcases rngAnswerAt_of_buildPoly hb with rfl | hnext
        · exact h j (Nat.lt_succ_of_lt hj) len
        · rw [hnext]
          exact h (j + 1) (Nat.succ_lt_succ hj) len
      · nofun
      · nofun

theorem secretOperand_length (s : State) : (secretOperand s).length = s.slen.toNat := by
  rw [secretOperand, List.length_map, List.length_range]

theorem finishResOr_next (s : State) (c : Cause) (o : Option Byte) : ∃ t, finishResOr s c o = .next t := by
  cases o <;> exact ⟨_, rfl⟩

/-- A command ends in a next state unless one of its requests goes unanswered. -/
theorem exec_next {s : State} (i : Instr) (h : ∀ j < max 1 s.slen.toNat, ∀ len, rngAnswerAt s j len ≠ .never) :
    ∃ t, exec i s = .next t := by
  cases i with
  | gfadd | gfsub | gfxtime | gfmul | gfpow | peval => exact ⟨_, rfl⟩
  | gfinv | gfdiv => exact finishResOr_next s _ _
  | xdistinct =>
    simp only [exec, execXdistinct]
    split <;> exact ⟨_, rfl⟩
  | lbasis =>
    simp only [exec, execLbasis]
    split
    · exact ⟨_, rfl⟩
    · exact finishResOr_next s _ _
  | linterp | linterp0 =>
    simp only [exec, execLinterp, execLinterp0]
    split
    · exact ⟨_, rfl⟩
    · exact finishResOr_next s _ _
  | pbuild =>
    simp only [exec, execPbuild]
    split
    · exact ⟨_, rfl⟩
    · exact ⟨_, rfl⟩
    · next hb => exact absurd hb (buildPoly_ne_hung _ (h 0 (by omega) _))
  | split =>
    simp only [exec, execSplit]
    split
    · exact ⟨_, rfl⟩
    · split
      · next hb =>
        refine absurd hb (drawPolys_ne_hung fun j hj => h j ?_)
        rw [secretOperand_length] at hj
        omega
      · exact ⟨_, rfl⟩
      · exact ⟨_, rfl⟩
  | combine =>
    simp only [exec, execCombine]
    split
    · exact ⟨_, rfl⟩
    · split <;> exact ⟨_, rfl⟩

/-- A command is launched in the state with the move taken and the response shown (R64). -/
theorem fetch_eq_launch {s t : State} {i : Instr} (h : fetch s = .launch i t) :
    ∃ moves, t = respond (setHost s moves) (.writeDone false) := by
  unfold fetch at h
  split at h
  · cases h
  · next m moves _ =>
    cases m with
    | read a => cases h
    | reset => cases h
    | write a v =>
      simp only [acceptMove] at h
      split at h
      · unfold launchByte at h
        split at h
        · cases h
          exact ⟨moves, rfl⟩
        · cases h
      · cases h

/-- Settles O20: a settled move goes on, and a launched command does by `exec_next`. -/
theorem stepGoesOnUnlessSourceSilent : Obligations.StepGoesOnUnlessSourceSilent := by
  intro s h
  unfold StepsOn step
  split
  · exact ⟨_, rfl⟩
  · next i t hf =>
    obtain ⟨moves, rfl⟩ := fetch_eq_launch hf
    exact exec_next i h

/-! ### SPLIT's checks (R181, R182) -/

theorem distinct_eq_true_iff (l : List Byte) : distinct l = true ↔ l.Nodup := by
  induction l with
  | nil => simp [distinct]
  | cons x l ih =>
    simp only [distinct, Bool.and_eq_true, ih, List.nodup_cons, List.all_eq_true, decide_eq_true_eq]
    exact and_congr_left fun _ => List.forall_mem_ne

theorem distinct_map_range_iff (f : Nat → Byte) (k : Nat) :
    distinct ((List.range k).map f) = true ↔ Distinct f k := by
  rw [distinct_eq_true_iff, List.Nodup, List.pairwise_iff_getElem]
  simp only [List.length_map, List.length_range, List.getElem_map, List.getElem_range]
  exact ⟨fun h j hj i hi => h i j (by omega) hj hi, fun h i j _ hj hij => h j hj i hij⟩

/-- A state that meets SPLIT's conditions passes its checks. -/
theorem splitCheck_of_splitOk {s : State} (h : SplitOk s) : splitCheck s = none := by
  obtain ⟨⟨hslen, hlmax⟩, ⟨ht, hn⟩, hxs⟩ := h
  have hslen0 : s.slen ≠ 0 := BitVec.toNat_ne.mpr (Nat.ne_of_gt hslen)
  have ht0 : s.t ≠ 0 := BitVec.toNat_ne.mpr (Nat.ne_of_gt ht)
  have hn0 : s.n ≠ 0 := BitVec.toNat_ne.mpr (Nat.ne_of_gt (ht.trans hn))
  rw [splitCheck, if_neg hslen0, if_neg (by omega), if_neg ht0, if_neg hn0, if_neg (by omega)]
  split
  · next hx =>
    obtain ⟨hxcnt, hzero, hdistinct⟩ := hxs hx
    have hforce : splitXs s = (List.range s.n.toNat).map (xs s) := by rw [splitXs, if_pos hx]; rfl
    have hany : ¬ (splitXs s).any (fun x => decide (x = 0)) = true := by
      simpa [hforce] using hzero
    rw [← distinct_map_range_iff, ← hforce] at hdistinct
    rw [if_neg (not_not.mpr hxcnt), if_neg hany, if_neg (by simp [hdistinct])]
  · rfl

/-- x-value number `j` in force for SPLIT (R182). -/
theorem getElem_splitXs (s : State) {j : Nat} (hj : j < (splitXs s).length) : (splitXs s)[j] = xValue s j := by
  have hget : ∀ {l : List Byte} (e : splitXs s = l), (splitXs s)[j] = l[j]'(e ▸ hj) := fun e => by simp only [e]
  unfold xValue
  split
  · next hx => rw [hget (show splitXs s = xsOperand s s.n.toNat from if_pos hx)]; simp [xsOperand, xs]
  · next hx => rw [hget (show splitXs s = defaultXs s.n.toNat from if_neg hx)]; simp [defaultXs]

/-! ### An unanswered request (R85) -/

theorem exec_pbuild_of_done {s s' : State} {c : List Byte} (h : buildPoly s s.opa s.deg.toNat = .done c s') :
    exec .pbuild s = .next (succeed (writePoly s' c)) := by
  simp only [exec, execPbuild, h, finish]

theorem exec_pbuild_of_hung {s : State} (h : buildPoly s s.opa s.deg.toNat = .hung) :
    exec .pbuild s = .fault .rngUnanswered := by
  simp only [exec, execPbuild, h]

theorem exec_split_of_done {s s' : State} {polys : List (List Byte)} (hc : splitCheck s = none)
    (h : drawPolys s (s.t.toNat - 1) (secretOperand s) = .done polys s') :
    exec .split s = .next (succeed (setMem s' (writeSlots s'.mem 0 s.slen polys (splitXs s)))) := by
  simp only [exec, execSplit, hc, h, finish]

theorem exec_split_of_hung {s : State} (hc : splitCheck s = none)
    (h : drawPolys s (s.t.toNat - 1) (secretOperand s) = .hung) : exec .split s = .fault .rngUnanswered := by
  simp only [exec, execSplit, hc, h]

/-- Settles O48: the polynomial of PBUILD, or the pass of SPLIT at position `p`, hangs. -/
theorem unansweredRequestStops : Obligations.UnansweredRequestStops := by
  refine ⟨fun s hdeg h => ?_, fun s answer p hok ht hp hsupplies h => ?_⟩
  · exact exec_pbuild_of_hung (buildPoly_of_never (BitVec.toNat_pos_of_ne_zero hdeg).ne' _ h)
  · rw [← secretOperand_length] at hp
    exact exec_split_of_hung (splitCheck_of_splitOk hok) (drawPolys_of_never (by omega) hp hsupplies h)

/-! ### What PBUILD writes (R165) -/

theorem coef_writePoly {s : State} {c : List Byte} {k : Nat} (hk : k < c.length) :
    coef (writePoly s c) k = c.getD k 0 := by
  have hread := bufferByte_setMem_memInsertList s (Loc.addr (.coef 0)) (Loc.addr (.coef k)) c
  have hsub : Loc.addr (.coef k) - Loc.addr (.coef 0) = k := by simp [Loc.addr]
  rw [dif_pos (by simp only [Loc.addr]; omega)] at hread
  refine hread.trans ?_
  simp only [hsub, List.getD_eq_getElem _ _ hk]

theorem getD_cons_take {b : Byte} {r : List Byte} {d k : Nat} (hpos : 1 ≤ k) (hk : k ≤ d) :
    (b :: r.take d).getD k 0 = r.getD (k - 1) 0 := by
  obtain ⟨k, rfl⟩ := Nat.exists_eq_add_of_le' hpos
  simp only [List.getD_eq_getElem?_getD, List.getElem?_cons_succ, Nat.add_sub_cancel]
  rw [List.getElem?_take_of_lt hk]

/-- PBUILD whose request is answered in full writes OPA and the first bytes of the answer to COEF. -/
theorem exec_pbuild_of_full {s : State} {r : List Byte} (hdeg : s.deg ≠ 0)
    (h : rngAnswerAt s 0 s.deg.toNat = .bytes r) (hr : s.deg.toNat ≤ r.length) :
    exec .pbuild s = .next (succeed (writePoly (closeRequest s s.deg.toNat s.deg.toNat) (s.opa :: r.take s.deg.toNat))) :=
  exec_pbuild_of_done (buildPoly_of_full (BitVec.toNat_pos_of_ne_zero hdeg).ne' _ h hr)

/-! ### What SPLIT writes (R183, R185) -/

/-- No address belongs to two of the slots. -/
theorem slotAddr_injective {len i i' a : Nat} (hlen : len ≤ 0x10000) (hi : i ≤ 0xFF) (hi' : i' ≤ 0xFF)
    (h : SlotAddr len i a) (h' : SlotAddr len i' a) : i = i' := by
  simp only [SlotAddr, Loc.addr] at h h'
  omega

/-- At an address of one slot the memory reads as when that slot was written. -/
theorem memLookup_writeSlots_of_slotAddr {m : Memory} {i q a : Nat} {len : Half} {polys : List (List Byte)}
    {xs : List Byte} (hq : q < xs.length) (hi : i + xs.length ≤ 0x100) (hlen : polys.length ≤ 0x10000)
    (ha : SlotAddr polys.length (i + q) a) : ∃ m', memLookup (writeSlots m i len polys xs) a =
      memLookup (writeSlot m' (i + q) xs[q] len (polys.map fun c => horner c xs[q])) a := by
  induction xs generalizing m i q with
  | nil => exact absurd hq (Nat.not_lt_zero q)
  | cons x xs ih =>
    rw [List.length_cons] at hq hi
    cases q with
    | zero =>
      have hlater : ∀ q' < xs.length, ¬ SlotAddr polys.length (i + 1 + q') a := fun q' hq' hslot => by
        have := slotAddr_injective hlen (by omega) (by omega) ha hslot
        omega
      exact ⟨m, memLookup_writeSlots_of_not_slotAddr hlater⟩
    | succ q =>
      rw [← Nat.add_assoc, Nat.add_right_comm] at ha ⊢
      exact ih (by omega) (by omega) ha

theorem memLookup_writeSlot_data {m : Memory} {i p : Nat} {x : Byte} {len : Half} {bytes : List Byte}
    (hp : p < bytes.length) : memLookup (writeSlot m i x len bytes) (Loc.addr (.shData i p)) = some bytes[p] := by
  have hsub : Loc.addr (.shData i p) - Loc.addr (.shData i 0) = p := by simp only [Loc.addr]; omega
  rw [writeSlot, memLookup_memInsertList, hsub, if_pos (by simp only [Loc.addr]; omega), List.getElem?_eq_getElem hp]

/-- Share byte `p` of slot `j` is the value of position `p`'s polynomial at x-value number `j`. -/
theorem elemByte_writeSlots_data (s : State) {m : Memory} {j p : Nat} {len : Half} {polys : List (List Byte)}
    {xs : List Byte} (hj : j < xs.length) (hxs : xs.length ≤ 0x100) (hp : p < polys.length)
    (hpolys : polys.length ≤ 0x10000) :
    elemByte (setMem s (writeSlots m 0 len polys xs)) (.shData j p) = horner polys[p] xs[j] := by
  have hslot : SlotAddr polys.length (0 + j) (Loc.addr (.shData j p)) := by
    refine Or.inr (Or.inr ?_)
    simp only [Loc.addr]
    omega
  obtain ⟨m', hm'⟩ := memLookup_writeSlots_of_slotAddr (m := m) (len := len) hj (by omega) hpolys hslot
  rw [Nat.zero_add, memLookup_writeSlot_data (by rwa [List.length_map]), List.getElem_map] at hm'
  rw [elemByte, bufferByte, setMem_mem, hm', Option.getD_some]

/-- The polynomials of a SPLIT in state `s` whose request number `p` is answered with `answer p` (R183). -/
def splitPolys (s : State) (answer : Nat → List Byte) : List (List Byte) :=
  (secretOperand s).mapIdx fun p b => b :: (answer p).take (s.t.toNat - 1)

theorem splitPolys_length (s : State) (answer : Nat → List Byte) : (splitPolys s answer).length = s.slen.toNat := by
  rw [splitPolys, List.length_mapIdx, secretOperand_length]

theorem getElem_splitPolys (s : State) (answer : Nat → List Byte) {p : Nat} (hp : p < (splitPolys s answer).length) :
    (splitPolys s answer)[p] = sec s p :: (answer p).take (s.t.toNat - 1) := by
  simp [splitPolys, secretOperand, sec]

/-- Position `p`'s polynomial, by Horner's method, is the polynomial of the secret byte and the answer's bytes. -/
theorem horner_splitPolys {s : State} {answer : Nat → List Byte} {p : Nat} (hp : p < (splitPolys s answer).length)
    (hlen : s.t.toNat - 1 ≤ (answer p).length) (x : Byte) :
    horner (splitPolys s answer)[p] x = evaluate (coefficient s answer p) (s.t.toNat - 1) x := by
  rw [getElem_splitPolys]
  refine horner_eq_evaluate (by rw [List.length_cons, List.length_take, Nat.min_eq_left hlen]) (fun k hk => ?_) x
  unfold coefficient
  split
  · next hk0 => rw [hk0]; rfl
  · exact getD_cons_take (by omega) hk

/-- A SPLIT that passes its checks and whose requests are all answered in full writes the slots and closes the requests. -/
theorem exec_split_of_supplies {s : State} {answer : Nat → List Byte} (hok : SplitOk s) (ht : 2 ≤ s.t.toNat)
    (h : RngSupplies s s.slen.toNat (s.t.toNat - 1) answer) : exec .split s =
      .next (succeed (setMem (afterRequests s s.slen.toNat (s.t.toNat - 1))
        (writeSlots s.mem 0 s.slen (splitPolys s answer) (splitXs s)))) := by
  rw [← secretOperand_length] at h
  rw [exec_split_of_done (splitCheck_of_splitOk hok) (drawPolys_of_supplies (by omega) h), secretOperand_length]
  rfl

/-- The share bytes such a SPLIT writes. -/
theorem elemByte_split_data {s : State} {answer : Nat → List Byte} (w : State) {j p : Nat} (hj : j < s.n.toNat)
    (hp : p < s.slen.toNat) (hlen : s.t.toNat - 1 ≤ (answer p).length) :
    elemByte (setMem w (writeSlots s.mem 0 s.slen (splitPolys s answer) (splitXs s))) (.shData j p) =
      evaluate (coefficient s answer p) (s.t.toNat - 1) (xValue s j) := by
  have hn := s.n.isLt
  have hslen := s.slen.isLt
  rw [← splitXs_length] at hj hn
  rw [← splitPolys_length s answer] at hp hslen
  rw [elemByte_writeSlots_data w hj hn.le hp hslen.le, getElem_splitXs, horner_splitPolys hp hlen]

/-! ### The source's answers stand in the state (assumption log 2) -/

theorem rngAnswerAt_of_listed {s : State} {rs : List (List Byte)} {later : List RngAnswer}
    (h : s.rng = rs.map .bytes ++ later) {j : Nat} (hj : j < rs.length) (len : Nat) :
    rngAnswerAt s j len = .bytes (rs.getD j []) := by
  have hget : s.rng[j]? = some (.bytes (rs.getD j [])) := by
    rw [h, List.getElem?_append_left (by rwa [List.length_map]), List.getElem?_map, List.getElem?_eq_getElem hj,
      List.getD_eq_getElem _ _ hj]
    rfl
  rw [rngAnswerAt, hget]

theorem rngSupplies_of_listed {s : State} {rs : List (List Byte)} {later : List RngAnswer} {d : Nat}
    (h : s.rng = rs.map .bytes ++ later) (hd : ∀ r ∈ rs, d ≤ r.length) :
    RngSupplies s rs.length d fun q => rs.getD q [] := fun j hj => by
  have hmem : rs.getD j [] ∈ rs := by
    rw [List.getD_eq_getElem _ _ hj]
    exact List.getElem_mem hj
  exact ⟨rngAnswerAt_of_listed h hj d, hd _ hmem⟩

/-- Settles O47: PBUILD by `coef_writePoly`, SPLIT by `elemByte_split_data`; neither looks at the bytes drawn. -/
theorem anyRandomBytesAreUsed : Obligations.AnyRandomBytesAreUsed := by
  refine ⟨fun s r later hdeg hr => ?_, fun s rs later hok ht hlen hrs => ?_⟩
  · refine ⟨_, exec_pbuild_of_full (s := { s with rng := .bytes r :: later }) hdeg rfl hr, rfl, rfl, rfl, ?_,
      fun k hpos hk => ?_⟩
    · exact coef_writePoly (Nat.succ_pos _)
    · refine (coef_writePoly ?_).trans (getD_cons_take hpos hk)
      rw [List.length_cons, List.length_take, Nat.min_eq_left hr]
      exact Nat.lt_succ_of_le hk
  · have hsupplies : RngSupplies { s with rng := rs.map .bytes ++ later } s.slen.toNat (s.t.toNat - 1) (rs.getD · []) :=
      hlen ▸ rngSupplies_of_listed rfl hrs
    refine ⟨_, exec_split_of_supplies hok ht hsupplies, rfl, rfl, ?_, fun j hj p hp => ?_⟩
    · exact List.drop_left' (by rw [List.length_map, hlen])
    · exact elemByte_split_data _ hj hp (hsupplies p hp).2

end Sys2Proof.Machine
end

section
/-!
SUPPORT. The encodings (spec/30_encoding.md): the opcode table read both ways, what writing an illegal opcode to CMD
does, and the transactions of the host script's statements.
-/

namespace Sys2Proof.Machine

open Sys2Proof.Spec

/-! ### The opcode table (R100 to R102) -/

/-- Everything the search of the table can answer: a row that the byte matches, or the illegal opcode when none does. -/
theorem matchRow_cases (b : Byte) (rows : List OpcodeRow) :
    (∃ r ∈ rows, b &&& r.mask = r.value ∧ matchRow b rows = .instr r.instr) ∨
      ((∀ r ∈ rows, b &&& r.mask ≠ r.value) ∧ matchRow b rows = .illegal b) := by
  induction rows with
  | nil => exact .inr ⟨by simp, rfl⟩
  | cons r rows ih =>
    by_cases hr : b &&& r.mask = r.value
    · exact .inl ⟨r, List.mem_cons_self, hr, if_pos hr⟩
    · rw [matchRow, if_neg hr]
      obtain ⟨r', hmem, hmatch, hdec⟩ | ⟨hnone, hdec⟩ := ih
      · exact .inl ⟨r', List.mem_cons_of_mem r hmem, hmatch, hdec⟩
      · exact .inr ⟨List.forall_mem_cons.mpr ⟨hr, hnone⟩, hdec⟩

/-- Every row decodes all eight bits, and its value is its command's opcode. -/
theorem mask_value_of_mem_opcodeTable : ∀ r ∈ opcodeTable, r.mask = 0xFF ∧ r.value = encode r.instr := by decide

theorem and_mask_of_mem_opcodeTable (b : Byte) {r : OpcodeRow} (hr : r ∈ opcodeTable) : b &&& r.mask = b := by
  rw [(mask_value_of_mem_opcodeTable r hr).1]
  exact BitVec.and_allOnes

/-- A byte is the opcode of a row and decodes to the row's command, or it is in no row and illegal. -/
theorem decode_cases (b : Byte) :
    (∃ r ∈ opcodeTable, b = r.value ∧ decode b = .instr r.instr) ∨
      ((∀ r ∈ opcodeTable, b ≠ r.value) ∧ decode b = .illegal b) := by
  obtain ⟨r, hr, hmatch, hdec⟩ | ⟨hnone, hdec⟩ := matchRow_cases b opcodeTable
  · rw [and_mask_of_mem_opcodeTable b hr] at hmatch
    exact .inl ⟨r, hr, hmatch, hdec⟩
  · refine .inr ⟨fun r hr => ?_, hdec⟩
    simpa only [and_mask_of_mem_opcodeTable b hr] using hnone r hr

theorem decode_encode (i : Instr) : decode (encode i) = .instr i := by cases i <;> rfl

theorem eq_encode_of_decode {b : Byte} {i : Instr} (h : decode b = .instr i) : b = encode i := by
  obtain ⟨r, hr, hb, hdec⟩ | ⟨-, hdec⟩ := decode_cases b <;> rw [h] at hdec <;> cases hdec
  exact hb.trans (mask_value_of_mem_opcodeTable r hr).2

/-- Settles O1: each opcode is its command's encoding, and the rows are the table's. -/
theorem opcodeTableDecodes : Obligations.OpcodeTableDecodes :=
  ⟨⟨decode_encode .gfadd, decode_encode .gfsub, decode_encode .gfxtime, decode_encode .gfmul, decode_encode .gfpow,
    decode_encode .gfinv, decode_encode .gfdiv, decode_encode .peval, decode_encode .xdistinct, decode_encode .lbasis,
    decode_encode .linterp, decode_encode .linterp0, decode_encode .pbuild, decode_encode .split,
    decode_encode .combine⟩, rfl⟩

/-- Settles O2: `decode_encode` one way, `eq_encode_of_decode` the other. -/
theorem decodeEncodeAgree : Obligations.DecodeEncodeAgree := ⟨decode_encode, fun _ _ => eq_encode_of_decode⟩

/-! ### Illegal opcodes (R104) -/

theorem decode_eq_illegal_iff (b : Byte) : decode b = .illegal b ↔ ∀ r ∈ opcodeTable, b ≠ r.value := by
  obtain ⟨r, hr, hb, hdec⟩ | ⟨hnone, hdec⟩ := decode_cases b
  · rw [hdec]
    exact ⟨nofun, fun h => absurd hb (h r hr)⟩
  · exact ⟨fun _ => hnone, fun _ => hdec⟩

theorem step_illegal {s : State} {a : Addr} {b : Byte} {moves : List HostMove} (h : s.host = .write a b :: moves)
    (ha : a.toNat = Loc.addr .cmd) (hb : decode b = .illegal b) :
    step s = .next (failWith (respond (setHost s moves) (.writeDone false)) .valIllegalCmd) := by
  simp [step, fetch, h, acceptMove, ha, launchByte, hb]

/-- Settles O3: the bytes in no row of the table are those listed, and `step_illegal` at address 0. -/
theorem illegalOpcodeRaises : Obligations.IllegalOpcodeRaises := by
  refine ⟨fun b => ?_, fun s b moves h hb => step_illegal h rfl hb⟩
  rw [decode_eq_illegal_iff]
  simp only [opcodeTable, List.forall_mem_cons, List.not_mem_nil, false_imp_iff, implies_true, and_true]
  bv_omega

/-! ### The host script's statements (R106) -/

theorem lt_of_locAt_eq_some {lmax : Lmax} {a j : Nat} {l : Loc} (h : locAt lmax.val a = some (l, j)) :
    a < 0x01FF0000 := by
  by_contra ha
  rw [locAt, if_neg (by omega), (bufferAt_eq_none_iff lmax (by omega)).mpr (by omega)] at h
  cases h

/-- The 32-bit address of a location's byte decodes to that location and byte. -/
theorem locAt_ofNat_addr (lmax : Lmax) {l : Loc} {j : Nat} (hl : l.wf lmax.val = true) (hj : j < l.width) :
    locAt lmax.val (BitVec.ofNat 32 (l.addr + j)).toNat = some (l, j) := by
  have h := locAt_addr lmax hl hj
  have hlt := lt_of_locAt_eq_some h
  rwa [BitVec.toNat_ofNat, Nat.mod_eq_of_lt (by omega)]

theorem mapIdx_map_range {α β : Type} (f : Nat → α) (g : Nat → α → β) (n : Nat) :
    ((List.range n).map f).mapIdx g = (List.range n).map fun j => g j (f j) :=
  List.ext_getElem (by simp) fun j _ _ => by simp

theorem sum_map_range_eq_sumBytes (f : Nat → Byte) (n : Nat) :
    ((List.range n).map fun j => (f j).toNat * 256 ^ j).sum = sumBytes f n := by
  induction n with
  | zero => rfl
  | succ n ih => rw [List.sum_range_succ, ih, sumBytes]

theorem sumBytes_natByte {v n : Nat} (hv : v < 256 ^ n) : sumBytes (natByte v) n = v := by
  rw [sumBytes_of_digits fun k _ => toNat_natByte v k, Nat.mod_eq_of_lt hv]

/-- Settles O6: the bytes written are the value's digits, `natByte`. -/
theorem statementTransactionsRoundTrip : Obligations.StatementTransactionsRoundTrip := by
  refine ⟨fun lmax l v h => ?_, fun lmax l hl => ⟨rfl, fun j hj => locAt_ofNat_addr lmax hl hj⟩,
    fun i => ⟨encode i, rfl, decode_encode i⟩⟩
  obtain ⟨hl, hv⟩ : l.wf lmax.val = true ∧ v < 256 ^ l.width := by simpa [Stmt.wf] using h
  refine ⟨(List.range l.width).map (natByte v), by simp, ?_, ?_, fun j hj => locAt_ofNat_addr lmax hl hj⟩
  · rw [mapIdx_map_range, sum_map_range_eq_sumBytes, sumBytes_natByte hv]
  · rw [mapIdx_map_range, Stmt.encode]

end Sys2Proof.Machine
end

section
/-!
SUPPORT. Bytes as polynomials over GF(2) (spec/00_scope.md R3, R9): `gfXtime` is multiplication by x and `gfMul` is
multiplication, modulo the reduction polynomial (spec/40_field.md R122, R123).
-/

namespace Sys2Proof.Machine

open Sys2Proof.Spec
open Polynomial (X)

/-! ### The polynomial of a sum and of a double -/

theorem bytePoly_zero : bytePoly 0 = 0 := by simp [bytePoly]

theorem bytePoly_xor (a b : Byte) : bytePoly (a ^^^ b) = bytePoly a + bytePoly b := by
  simp only [bytePoly, ← Finset.sum_add_distrib, BitVec.getLsbD_xor]
  refine Finset.sum_congr rfl fun i _ => ?_
  cases a.getLsbD i <;> cases b.getLsbD i <;> simp [CharTwo.add_self_eq_zero]

theorem bytePoly_sum (f : Nat → Byte) (n : Nat) : bytePoly (sum f n) = ∑ i ∈ Finset.range n, bytePoly (f i) := by
  induction n with
  | zero => exact bytePoly_zero
  | succ n ih => rw [sum, bytePoly_xor, ih, Finset.sum_range_succ]

/-- Bit 0 of a shifted byte is 0, and each other bit is the one below it: only x^8 is lost. -/
theorem X_mul_bytePoly_eq_shift (a : Byte) :
    X * bytePoly a = bytePoly (a <<< 1) + if a.getLsbD 7 then X ^ 8 else 0 := by
  have hlow : (a <<< 1).getLsbD 0 = false := by simp
  have hbit : ∀ i ∈ Finset.range 7, (a <<< 1).getLsbD (i + 1) = a.getLsbD i := fun i hi => by
    have hi := Finset.mem_range.mp hi
    rw [BitVec.getLsbD_shiftLeft, decide_eq_true (by omega), decide_eq_false (by omega)]
    rfl
  have hshift : bytePoly (a <<< 1) = ∑ i ∈ Finset.range 7, if a.getLsbD i then X ^ (i + 1) else 0 := by
    rw [bytePoly, Finset.sum_range_succ', hlow, if_neg Bool.false_ne_true, add_zero]
    exact Finset.sum_congr rfl fun i hi => by rw [hbit i hi]
  rw [hshift, bytePoly, Finset.mul_sum, Finset.sum_range_succ]
  simp only [mul_ite, mul_zero, ← pow_succ']

/-- The reduction byte 0x1B stands for what x^8 leaves modulo 0x11B. -/
theorem X_pow_eight : (X ^ 8 : Polynomial (ZMod 2)) = reductionPoly + bytePoly 0x1B := by
  have h1B : bytePoly 0x1B = X ^ 4 + X ^ 3 + X + 1 := by
    simp [bytePoly, Finset.sum_range_succ, add_assoc, add_comm]
  rw [h1B, reductionPoly]
  linear_combination -(CharTwo.add_self_eq_zero (X ^ 4 + X ^ 3 + X + 1 : Polynomial (ZMod 2)))

/-- Doubling subtracts the reduction polynomial once, when bit 7 is set. -/
theorem X_mul_bytePoly (a : Byte) :
    X * bytePoly a = (if a.getLsbD 7 then 1 else 0) * reductionPoly + bytePoly (gfXtime a) := by
  rw [X_mul_bytePoly_eq_shift, gfXtime]
  split
  · rw [X_pow_eight, bytePoly_xor]
    ring
  · ring

/-! ### The polynomial of a product -/

/-- The class modulo the reduction polynomial of the polynomial a byte stands for. -/
noncomputable def residue (a : Byte) : AdjoinRoot reductionPoly := AdjoinRoot.mk reductionPoly (bytePoly a)

theorem residue_xtime (a : Byte) : residue (gfXtime a) = AdjoinRoot.root reductionPoly * residue a := by
  rw [residue, residue, ← AdjoinRoot.mk_X, ← map_mul, X_mul_bytePoly, map_add, map_mul, AdjoinRoot.mk_self, mul_zero,
    zero_add]

theorem residue_iterate_xtime (a : Byte) (n : Nat) :
    residue (gfXtime^[n] a) = AdjoinRoot.root reductionPoly ^ n * residue a := by
  induction n with
  | zero => rw [Function.iterate_zero_apply, pow_zero, one_mul]
  | succ n ih => rw [Function.iterate_succ_apply', residue_xtime, ih, pow_succ', mul_assoc]

theorem residue_sum (f : Nat → Byte) (n : Nat) : residue (sum f n) = ∑ i ∈ Finset.range n, residue (f i) := by
  rw [residue, bytePoly_sum, map_sum]
  rfl

theorem residue_eq_sum (b : Byte) : residue b =
    ∑ i ∈ Finset.range 8, if b.getLsbD i then AdjoinRoot.root reductionPoly ^ i else 0 := by
  rw [residue, bytePoly, map_sum]
  refine Finset.sum_congr rfl fun i _ => ?_
  rw [apply_ite (AdjoinRoot.mk reductionPoly), map_pow, AdjoinRoot.mk_X, map_zero]

/-- The bits of `b` select the doublings of `a`, and these are the multiples of `a` by powers of x. -/
theorem residue_mul (a b : Byte) : residue (gfMul a b) = residue a * residue b := by
  have hzero : residue 0 = 0 := by rw [residue, bytePoly_zero, map_zero]
  rw [gfMul_eq_sum, residue_sum, residue_eq_sum b, Finset.mul_sum]
  refine Finset.sum_congr rfl fun i _ => ?_
  rw [apply_ite residue, residue_iterate_xtime, hzero, mul_ite, mul_zero, mul_comm]

/-- Settles O29: equal residues, `residue_mul`, differ by a multiple; doubling by `X_mul_bytePoly`. -/
theorem gfmulIsPolynomialProduct : Obligations.GfmulIsPolynomialProduct := by
  refine ⟨fun a b => ?_, fun a => ⟨_, X_mul_bytePoly a⟩⟩
  have hmk : AdjoinRoot.mk reductionPoly (bytePoly a * bytePoly b) = AdjoinRoot.mk reductionPoly (bytePoly (gfMul a b)) :=
    (map_mul _ _ _).trans (residue_mul a b).symm
  obtain ⟨q, hq⟩ := AdjoinRoot.mk_eq_mk.mp hmk
  exact ⟨q, by rw [mul_comm q, ← hq, sub_add_cancel]⟩

end Sys2Proof.Machine
end

section
/-!
SUPPORT. The field laws (spec/40_field.md R124 to R128): multiplication commutes, powers obey the laws of exponents and
square-and-multiply computes them, and the nonzero bytes have order 255, so that the 254th power inverts.
-/

namespace Sys2Proof.Machine

open Sys2Proof.Spec

/-! ### Multiplication (R123, R128) -/

/-- Multiplication commutes: on the sixty-four pairs of bits, hence everywhere. -/
theorem gfMul_comm (a b : Byte) : gfMul a b = gfMul b a := by
  have hbits : ∀ j < 8, ∀ i < 8, gfMul (1 <<< i) (1 <<< j) = gfMul (1 <<< j) (1 <<< i) := by decide
  refine (gfMul_additive_right a).ext (gfMul_additive_left a) (fun j hj => ?_) b
  exact (gfMul_additive_left _).ext (gfMul_additive_right _) (hbits j hj) a

theorem gfMul_zero_right (a : Byte) : gfMul a 0 = 0 := (gfMul_additive_right a).map_zero

theorem gfMul_zero_left (a : Byte) : gfMul 0 a = 0 := (gfMul_additive_left a).map_zero

theorem gfMul_one_left (a : Byte) : gfMul 1 a = a := by rw [gfMul_comm, gfMul_one_right]

/-- Doubling is multiplication by 2, which is the double of 1. -/
theorem gfMul_two_right (a : Byte) : gfMul a 2 = gfXtime a := by
  have htwo : (2 : Byte) = gfXtime 1 := rfl
  rw [htwo, gfMul_xtime_right, gfMul_one_right]

/-- Settles O28: `gfMul_assoc`. -/
theorem gfmulAssociative : Obligations.GfmulAssociative := gfMul_assoc

/-! ### Powers (R124) -/

theorem power_one (a : Byte) : power a 1 = a := gfMul_one_left a

theorem power_add (a : Byte) (m n : Nat) : power a (m + n) = gfMul (power a m) (power a n) := by
  induction n with
  | zero => exact (gfMul_one_right _).symm
  | succ n ih => rw [← Nat.add_assoc, power, ih, gfMul_assoc, power]

theorem power_mul (a : Byte) (m n : Nat) : power a (m * n) = power (power a m) n := by
  induction n with
  | zero => rfl
  | succ n ih => rw [Nat.mul_succ, power_add, ih, power]

theorem power_two (a : Byte) : power a 2 = gfMul a a := congrArg (gfMul · a) (power_one a)

theorem one_power (n : Nat) : power 1 n = 1 := by
  induction n with
  | zero => rfl
  | succ n ih => rw [power, gfMul_one_right, ih]

theorem zero_power {n : Nat} (hn : n ≠ 0) : power 0 n = 0 := by
  obtain ⟨m, rfl⟩ := Nat.exists_eq_succ_of_ne_zero hn
  exact gfMul_zero_right _

theorem power_lowBit (a : Byte) (c : Bool) : power a c.toNat = if c then a else 1 := by
  cases c
  · rfl
  · exact power_one a

/-- The lowest `k + 1` bits of a word are its lowest bit and, doubled, the lowest `k` bits of the rest. -/
theorem toNat_mod_two_pow_succ {w : Nat} (e : BitVec w) (k : Nat) :
    e.toNat % 2 ^ (k + 1) = (e.getLsbD 0).toNat + 2 * ((e >>> 1).toNat % 2 ^ k) := by
  rw [Nat.pow_succ', Nat.mod_mul, BitVec.toNat_ushiftRight, Nat.shiftRight_one, ← BitVec.testBit_toNat,
    Nat.toNat_testBit, pow_zero, Nat.div_one]

/-- `k` rounds of square-and-multiply multiply the running result by the power that the lowest `k` bits give. -/
theorem gfPowLoop_eq (k : Nat) (a : Byte) (e : BitVec Config.expW) (r : Byte) :
    gfPowLoop k a e r = gfMul r (power a (e.toNat % 2 ^ k)) := by
  induction k generalizing a e r with
  | zero => rw [pow_zero, Nat.mod_one]; exact (gfMul_one_right r).symm
  | succ k ih =>
    rw [gfPowLoop, ih, toNat_mod_two_pow_succ, power_add, power_mul, power_two, power_lowBit, ← gfMul_assoc]
    cases e.getLsbD 0
    · rw [if_neg Bool.false_ne_true, if_neg Bool.false_ne_true, gfMul_one_right]
    · rfl

theorem gfPow_eq_power (a : Byte) (e : BitVec Config.expW) : gfPow a e = power a e.toNat := by
  rw [gfPow, gfPowLoop_eq, gfMul_one_left, Nat.mod_eq_of_lt e.isLt]

/-! ### The order of the nonzero bytes (R124, R125) -/

/-- Squaring respects addition: the two mixed products cancel. -/
theorem square_additive : XorAdditive (power · 2) := by
  intro a b
  have hexpand : gfMul (a ^^^ b) (a ^^^ b) = (gfMul a a ^^^ gfMul b a) ^^^ (gfMul a b ^^^ gfMul b b) :=
    (gfMul_additive_right (a ^^^ b) a b).trans
      (congrArg₂ (· ^^^ ·) (gfMul_additive_left a a b) (gfMul_additive_left b a b))
  simp only [power_two]
  rw [hexpand, gfMul_comm b a, BitVec.xor_assoc, ← BitVec.xor_assoc (gfMul a b), BitVec.xor_self, BitVec.zero_xor]

theorem iterate_square (a : Byte) (n : Nat) : (power · 2)^[n] a = power a (2 ^ n) := by
  induction n with
  | zero => exact (power_one a).symm
  | succ n ih => rw [Function.iterate_succ_apply', ih, Nat.pow_succ, power_mul]

/-- Eight squarings are additive and fix each of the eight bits, so they fix every byte. -/
theorem power_256 (a : Byte) : power a 256 = a := by
  have hbits : ∀ i < 8, (power · 2)^[8] (1 <<< i : Byte) = 1 <<< i := by decide +kernel
  exact (iterate_square a 8).symm.trans ((square_additive.iterate 8).ext (G := id) (fun _ _ => rfl) hbits a)

/-- The only bytes that squaring fixes are 0 and 1. -/
theorem eq_zero_or_one_of_square_eq (a : Byte) (h : gfMul a a = a) : a = 0 ∨ a = 1 := by
  revert a
  decide

/-- The 255th power is its own square, hence 0 or 1, and it times `a` is `a`. -/
theorem power_255 {a : Byte} (ha : a ≠ 0) : power a 255 = 1 := by
  have hmul : gfMul (power a 255) a = a := power_256 a
  have hsquare : gfMul (power a 255) (power a 255) = power a 255 := calc
    gfMul (power a 255) (power a 255) = power a (256 + 254) := (power_add a 255 255).symm
    _ = gfMul a (power a 254) := by rw [power_add, power_256]
    _ = power a 255 := gfMul_comm _ _
  refine (eq_zero_or_one_of_square_eq _ hsquare).resolve_left fun hzero => ha ?_
  rw [← hmul, hzero, gfMul_zero_left]

/-- Exponents of a nonzero byte count modulo 255. -/
theorem power_mod_255 {a : Byte} (ha : a ≠ 0) (n : Nat) : power a (n % 255) = power a n := by
  conv_rhs => rw [← Nat.mod_add_div n 255, power_add, power_mul, power_255 ha, one_power, gfMul_one_right]

/-- Settles O30: `gfPow_eq_power` turns each consequence into one about `power`. -/
theorem gfpowIsIteratedProduct : Obligations.GfpowIsIteratedProduct := by
  refine ⟨gfPow_eq_power, gfPow_eq_power 0 0, fun e he => ?_, fun a => ⟨gfPow_eq_power a 0, ?_⟩,
    fun a ha => ⟨?_, fun e => ?_⟩⟩
  · rw [gfPow_eq_power, zero_power fun h => he (BitVec.eq_of_toNat_eq h)]
  · exact (gfPow_eq_power a 1).trans (power_one a)
  · exact (gfPow_eq_power a 255).trans (power_255 ha)
  · rw [gfPow_eq_power, gfPow_eq_power, BitVec.toNat_umod]
    exact (power_mod_255 ha _).symm

/-! ### The inverse and the quotient (R125, R126) -/

theorem gfPow_254 (a : Byte) : gfPow a 254 = power a 254 := gfPow_eq_power a 254

theorem gfMul_power_254 {a : Byte} (ha : a ≠ 0) : gfMul a (power a 254) = 1 := by
  rw [gfMul_comm]
  exact power_255 ha

/-- The exponent 254 · 254 leaves 1 modulo 255. -/
theorem power_254_power_254 {a : Byte} (ha : a ≠ 0) : power (power a 254) 254 = a := by
  rw [← power_mul, ← power_mod_255 ha]
  exact power_one a

theorem gfInv_zero : gfInv 0 = none := rfl

theorem gfInv_of_ne_zero {a : Byte} (ha : a ≠ 0) : gfInv a = some (power a 254) := by
  rw [gfInv, if_neg ha, gfPow_254]

theorem gfDiv_zero (a : Byte) : gfDiv a 0 = none := rfl

theorem gfDiv_of_ne_zero (a : Byte) {b : Byte} (hb : b ≠ 0) : gfDiv a b = some (quotient a b) := by
  rw [gfDiv, gfInv_of_ne_zero hb]
  rfl

theorem gfMul_quotient (a : Byte) {b : Byte} (hb : b ≠ 0) : gfMul (quotient a b) b = a := by
  rw [quotient, gfMul_assoc, gfMul_comm _ b, gfMul_power_254 hb, gfMul_one_right]

theorem quotient_self {a : Byte} (ha : a ≠ 0) : quotient a a = 1 := gfMul_power_254 ha

theorem quotient_one (a : Byte) : quotient a 1 = a := by rw [quotient, one_power, gfMul_one_right]

/-- Settles O27: addition is exclusive or; multiplication by its additivity on the right and `gfMul_comm`. -/
theorem fieldAxioms : Obligations.FieldAxioms := fun a b c =>
  ⟨BitVec.xor_comm a b, BitVec.xor_zero, BitVec.xor_self, gfMul_one_right a, gfMul_zero_right a, gfMul_comm a b,
    gfMul_additive_right a b c, (gfMul_two_right a).symm,
    fun ha => ⟨power a 254, gfInv_of_ne_zero ha, gfMul_power_254 ha⟩, gfInv_zero⟩

/-- Settles O31: the model's inverse and quotient are the 254th power and `quotient`. -/
theorem inverseAndQuotient : Obligations.InverseAndQuotient := by
  simp only [Obligations.InverseAndQuotient, gfPow_254]
  exact ⟨fun a ha => ⟨gfInv_of_ne_zero ha, gfMul_power_254 ha⟩, gfInv_zero,
    fun a b hb => ⟨gfDiv_of_ne_zero a hb, gfMul_quotient a hb⟩, gfDiv_zero⟩

end Sys2Proof.Machine
end

section
/-!
SUPPORT. The Field commands (spec/40_field.md R130 to R136): each is one of two endings, with a result or with an error.
-/

namespace Sys2Proof.Machine

open Sys2Proof.Spec

/-! ### The two endings of a scalar-result command (R23, R212, R213) -/

theorem finishRes_eq (s : State) (v : Byte) : finishRes s v = .next { s with res := v, status := 0x80, errcode := 0x00 } :=
  rfl

theorem exec_gfinv_of_ne_zero {s : State} (ha : s.opa ≠ 0) : exec .gfinv s = finishRes s (power s.opa 254) :=
  congrArg (finishResOr s .domInvZero) (gfInv_of_ne_zero ha)

theorem exec_gfinv_of_zero {s : State} (ha : s.opa = 0) : exec .gfinv s = raise s .domInvZero :=
  congrArg (finishResOr s .domInvZero ∘ gfInv) ha

theorem exec_gfdiv_of_ne_zero {s : State} (hb : s.opb ≠ 0) : exec .gfdiv s = finishRes s (quotient s.opa s.opb) :=
  congrArg (finishResOr s .domDivZero) (gfDiv_of_ne_zero s.opa hb)

theorem exec_gfdiv_of_zero {s : State} (hb : s.opb = 0) : exec .gfdiv s = raise s .domDivZero :=
  congrArg (finishResOr s .domDivZero ∘ gfDiv s.opa) hb

/-! ### The commands -/

/-- Settles O32: both commands end with the exclusive or. -/
theorem gfaddGfsubResult : Obligations.GfaddGfsubResult :=
  ⟨rfl, rfl, fun s => ⟨finishRes_eq s (gfAdd s.opa s.opb), finishRes_eq s (gfSub s.opa s.opb)⟩⟩

/-- Settles O33: the double by bit 7 of OPA. -/
theorem gfxtimeResult : Obligations.GfxtimeResult := by
  have hexec : ∀ s : State, exec .gfxtime s = finishRes s (gfXtime s.opa) := fun _ => rfl
  refine ⟨rfl, fun s => ⟨fun h => ?_, fun h => ?_⟩⟩ <;> rw [hexec, finishRes_eq, gfXtime, h] <;> rfl

/-- Settles O34: the corner cases are the field's laws. -/
theorem gfmulResult : Obligations.GfmulResult := by
  refine ⟨rfl, fun s => ⟨finishRes_eq s (gfMul s.opa s.opb), ?_, fun h => ?_, fun h => ?_⟩⟩
  · rintro (h | h) <;> rw [h]
    · exact gfMul_zero_left _
    · exact gfMul_zero_right _
  · rw [h]
    exact gfMul_one_right _
  · rw [h]
    exact gfMul_two_right _

/-- Settles O35: `gfPow_eq_power`. -/
theorem gfpowResult : Obligations.GfpowResult :=
  ⟨rfl, fun s => (congrArg (finishRes s) (gfPow_eq_power s.opa s.exp)).trans (finishRes_eq s _)⟩

/-- Settles O36: by whether OPA is zero. -/
theorem gfinvResult : Obligations.GfinvResult :=
  ⟨rfl, fun _ => ⟨fun ha => ⟨exec_gfinv_of_ne_zero ha, gfMul_power_254 ha, power_254_power_254 ha⟩, exec_gfinv_of_zero⟩⟩

/-- Settles O37: by whether OPB is zero. -/
theorem gfdivResult : Obligations.GfdivResult := by
  refine ⟨rfl, fun s => ⟨fun hb => ⟨exec_gfdiv_of_ne_zero hb, gfMul_quotient s.opa hb, fun h => ?_, fun h => ?_⟩,
    exec_gfdiv_of_zero⟩⟩
  · rw [h]
    exact quotient_self hb
  · rw [h]
    exact quotient_one s.opa

end Sys2Proof.Machine
end

section
/-!
SUPPORT. The bytes inside a field of Mathlib's: addition, multiplication, powers and quotients of bytes are those of the
algebraic closure of GF(2) (spec/00_scope.md R3; spec/40_field.md R120 to R126), so Mathlib's theorems on polynomials over
a field speak of bytes.
-/

namespace Sys2Proof.Machine

open Sys2Proof.Spec

/-! ### The embedding -/

/-- The field in which the bytes are embedded. -/
abbrev Closure := AlgebraicClosure (ZMod 2)

theorem degree_reductionPoly : reductionPoly.degree = 8 := by
  unfold reductionPoly
  compute_degree!

/-- The reduction polynomial has a root in the closure, and sending x to it is a map of rings. -/
theorem nonempty_residue_embedding : Nonempty (AdjoinRoot reductionPoly →+* Closure) := by
  have hdegree : reductionPoly.degree ≠ 0 := by
    rw [degree_reductionPoly]
    decide
  obtain ⟨root, hroot⟩ := IsAlgClosed.exists_aeval_eq_zero Closure reductionPoly hdegree
  exact ⟨AdjoinRoot.lift (algebraMap (ZMod 2) Closure) root hroot⟩

/-- A byte as an element of the closure. -/
noncomputable def toField (a : Byte) : Closure := Classical.choice nonempty_residue_embedding (residue a)

/-! ### Addition and multiplication (R120, R121, R123) -/

theorem toField_add (a b : Byte) : toField (a ^^^ b) = toField a + toField b := by
  rw [toField, residue, bytePoly_xor, map_add, map_add]
  rfl

theorem toField_mul (a b : Byte) : toField (gfMul a b) = toField a * toField b := by
  rw [toField, residue_mul, map_mul]
  rfl

theorem toField_zero : toField 0 = 0 := by rw [toField, residue, bytePoly_zero, map_zero, map_zero]

theorem toField_one : toField 1 = 1 := by
  have hone : bytePoly 1 = 1 := by simp [bytePoly]
  rw [toField, residue, hone, map_one, map_one]

/-- Addition of bytes is subtraction too (R121). -/
theorem toField_sub (a b : Byte) : toField (a ^^^ b) = toField a - toField b := by
  rw [eq_sub_iff_add_eq, ← toField_add, BitVec.xor_assoc, BitVec.xor_self, BitVec.xor_zero]

/-- Only 0 goes to 0, since every other byte has an inverse. -/
theorem toField_eq_zero {a : Byte} (h : toField a = 0) : a = 0 := by
  by_contra ha
  have hone : toField (gfMul a (power a 254)) = 1 := by rw [gfMul_power_254 ha, toField_one]
  rw [toField_mul, h, zero_mul] at hone
  exact zero_ne_one hone

theorem toField_injective : Function.Injective toField := fun a b h =>
  BitVec.xor_eq_zero_iff.mp (toField_eq_zero (by rw [toField_sub, h, sub_self]))

/-! ### Sums, products and quotients (spec/00_scope.md R10) -/

theorem toField_sum (f : Nat → Byte) (n : Nat) : toField (sum f n) = ∑ i ∈ Finset.range n, toField (f i) := by
  rw [toField, residue_sum, map_sum]
  rfl

/-- The 254th power inverts, and the closure too lets the inverse of 0 be 0. -/
theorem toField_power_254 (a : Byte) : toField (power a 254) = (toField a)⁻¹ := by
  by_cases ha : a = 0
  · rw [ha, zero_power (by decide), toField_zero, inv_zero]
  · refine eq_inv_of_mul_eq_one_right ?_
    rw [← toField_mul, gfMul_power_254 ha, toField_one]

theorem toField_quotient (a b : Byte) : toField (quotient a b) = toField a / toField b := by
  rw [quotient, toField_mul, toField_power_254, div_eq_mul_inv]

theorem toField_productBut (i : Nat) (f : Nat → Byte) (k : Nat) :
    toField (productBut i f k) = ∏ j ∈ (Finset.range k).erase i, toField (f j) := by
  induction k with
  | zero => exact toField_one
  | succ k ih =>
    rw [productBut, Finset.range_add_one]
    split
    · next hk => rw [ih, ← hk, Finset.erase_insert_eq_erase]
    · next hk =>
      have hfresh : k ∉ (Finset.range k).erase i := fun h => Finset.notMem_range_self (Finset.mem_of_mem_erase h)
      rw [Finset.erase_insert_of_ne hk, Finset.prod_insert hfresh, toField_mul, ih, mul_comm]

/-- A product of quotients is the quotient of the products. -/
theorem productBut_quotient (i : Nat) (f g : Nat → Byte) (k : Nat) :
    productBut i (fun j => quotient (f j) (g j)) k = quotient (productBut i f k) (productBut i g k) := by
  apply toField_injective
  simp only [toField_productBut, toField_quotient, Finset.prod_div_distrib]

end Sys2Proof.Machine
end

section
/-!
SUPPORT. The polynomial functions (spec/41_polynomial.md R150 to R155): the loops of the model compute the spec's formulas,
and these are Mathlib's Lagrange interpolation in the field that `toField` embeds the bytes in.
-/

namespace Sys2Proof.Machine

open Sys2Proof.Spec
open Polynomial (C X)

/-! ### The basis value (R152) -/

theorem productBut_succ_self (i : Nat) (f : Nat → Byte) : productBut i f (i + 1) = productBut i f i := if_pos rfl

theorem productBut_succ_of_ne {i k : Nat} (hk : k ≠ i) (f : Nat → Byte) :
    productBut i f (k + 1) = gfMul (productBut i f k) (f k) := if_neg hk

/-- From index `j` on, the loop extends the two products over the indices below `j`. -/
theorem lagTerms_of_ne {factor : Byte → Byte} {xi : Byte} {i : Nat} {x : Nat → Byte} (j n : Nat)
    (h : ∀ m < j + n, m ≠ i → xi ≠ x m) :
    lagTerms factor xi i j ((List.range' j n).map x) (productBut i (fun m => factor (x m)) j)
        (productBut i (fun m => xi ^^^ x m) j) =
      some (productBut i (fun m => factor (x m)) (j + n), productBut i (fun m => xi ^^^ x m) (j + n)) := by
  induction n generalizing j with
  | zero => rfl
  | succ n ih =>
    have hnext := ih (j + 1) (by rwa [Nat.add_right_comm])
    rw [Nat.add_right_comm] at hnext
    rw [List.range'_succ, List.map_cons, lagTerms]
    split
    · next hj =>
      subst hj
      rwa [productBut_succ_self, productBut_succ_self] at hnext
    · next hj =>
      have hterm : ¬ xi ^^^ x j = 0 := fun h0 => h j (by omega) hj (BitVec.xor_eq_zero_iff.mp h0)
      rw [productBut_succ_of_ne hj, productBut_succ_of_ne hj] at hnext
      rwa [if_neg hterm]

/-- A zero denominator term ahead stops the loop. -/
theorem lagTerms_of_eq {factor : Byte → Byte} {i m j n : Nat} {x : Nat → Byte} {xi num den : Byte} (hj : j ≤ m)
    (hm : m < j + n) (hmi : m ≠ i) (heq : xi = x m) : lagTerms factor xi i j ((List.range' j n).map x) num den = none := by
  induction n generalizing j num den with
  | zero => omega
  | succ n ih =>
    have hnext : j ≠ m → ∀ num den, lagTerms factor xi i (j + 1) ((List.range' (j + 1) n).map x) num den = none :=
      fun hne num den => ih (by omega) (by omega)
    rw [List.range'_succ, List.map_cons, lagTerms]
    split
    · next hji => exact hnext (hji ▸ hmi.symm) _ _
    · split
      · rfl
      · next hzero => exact hnext (fun hjm => hzero (by rw [hjm, heq, BitVec.xor_self]; rfl)) _ _

section
variable {x : Nat → Byte} {k i : Nat} (hi : i < k)
include hi

theorem getD_map_range : ((List.range k).map x).getD i 0 = x i := by
  simp [List.getD_eq_getElem?_getD, hi]

/-- Where no denominator term is zero, the quotient of the loop's products is the product of the quotients. -/
theorem lagQuotient_of_ne (factor : Byte → Byte) (h : ∀ j < k, j ≠ i → x i ≠ x j) :
    lagQuotient factor ((List.range k).map x) i =
      some (productBut i (fun j => quotient (factor (x j)) (x i ^^^ x j)) k) := by
  have hterms : lagTerms factor (x i) i 0 ((List.range k).map x) 1 1 =
      some (productBut i (fun j => factor (x j)) k, productBut i (fun j => x i ^^^ x j) k) := by
    have hloop := lagTerms_of_ne (factor := factor) 0 k (by rwa [Nat.zero_add])
    rwa [← List.range_eq_range', Nat.zero_add] at hloop
  rw [productBut_quotient, quotient, ← gfPow_254, lagQuotient, getD_map_range hi, hterms]

theorem lagBasis_of_ne (h : ∀ j < k, j ≠ i → x i ≠ x j) (a : Byte) :
    lagBasis ((List.range k).map x) i a = some (basis x k i a) := lagQuotient_of_ne hi _ h

theorem lagBasis_of_eq {j : Nat} (hj : j < k) (hji : j ≠ i) (heq : x i = x j) (a : Byte) :
    lagBasis ((List.range k).map x) i a = none := by
  rw [lagBasis, lagQuotient, getD_map_range hi, List.range_eq_range', lagTerms_of_eq (Nat.zero_le j) (by omega) hji heq]

end

theorem ne_of_distinct {x : Nat → Byte} {k i j : Nat} (hx : Distinct x k) (hi : i < k) (hj : j < k) (hij : i ≠ j) :
    x i ≠ x j :=
  hij.lt_or_gt.elim (hx j hj i) fun hji => (hx i hi j hji).symm

theorem lagBasis_of_distinct {x : Nat → Byte} {k i : Nat} (hx : Distinct x k) (hi : i < k) (a : Byte) :
    lagBasis ((List.range k).map x) i a = some (basis x k i a) :=
  lagBasis_of_ne hi (fun _ hj hji => ne_of_distinct hx hi hj hji.symm) a

/-- The form of R154 carries no X, because `0 ⊕ x_j = x_j`. -/
theorem lagBasisZero_eq_lagBasis (zs : List Byte) (i : Nat) : lagBasisZero zs i = lagBasis zs i 0 := by
  simp only [lagBasisZero, lagBasis]
  congr
  funext x
  exact BitVec.zero_xor.symm

/-! ### The interpolated value (R153, R154) -/

/-- From index `j` on, the loop extends the sum over the indices below `j`. -/
theorem lagSum_of_some {f : Nat → Option Byte} {b y : Nat → Byte} (j n : Nat) (h : ∀ m < j + n, f m = some (b m)) :
    lagSum f j ((List.range' j n).map y) (sum (fun m => gfMul (y m) (b m)) j) =
      some (sum (fun m => gfMul (y m) (b m)) (j + n)) := by
  induction n generalizing j with
  | zero => rfl
  | succ n ih =>
    have hnext := ih (j + 1) (by rwa [Nat.add_right_comm])
    rw [Nat.add_right_comm] at hnext
    rw [List.range'_succ, List.map_cons, lagSum, h j (by omega)]
    exact hnext

theorem lagAt_eq_interpolate {x : Nat → Byte} {k : Nat} (hx : Distinct x k) (y : Nat → Byte) (a : Byte) :
    lagAt ((List.range k).map x) ((List.range k).map y) a = some (interpolate x y k a) := by
  have hsum := lagSum_of_some (f := fun i => lagBasis ((List.range k).map x) i a) (y := y) 0 k
    (fun i hi => lagBasis_of_distinct hx (by omega) a)
  rwa [← List.range_eq_range', Nat.zero_add] at hsum

theorem lagAtZero_eq_lagAt (zs ws : List Byte) : lagAtZero zs ws = lagAt zs ws 0 :=
  congrArg (lagSum · 0 ws 0) (funext (lagBasisZero_eq_lagBasis zs))

theorem lagAtZero_eq_interpolate {x : Nat → Byte} {k : Nat} (hx : Distinct x k) (y : Nat → Byte) :
    lagAtZero ((List.range k).map x) ((List.range k).map y) = some (interpolate x y k 0) :=
  (lagAtZero_eq_lagAt _ _).trans (lagAt_eq_interpolate hx y 0)

/-! ### Mathlib's Lagrange polynomials (R152, R153) -/

theorem toField_injOn_of_distinct {x : Nat → Byte} {k : Nat} (hx : Distinct x k) :
    Set.InjOn (fun i => toField (x i)) (Finset.range k) := fun i hi j hj h => by
  by_contra hij
  exact ne_of_distinct hx (Finset.mem_range.mp hi) (Finset.mem_range.mp hj) hij (toField_injective h)

theorem toField_basis (x : Nat → Byte) (k i : Nat) (a : Byte) :
    toField (basis x k i a) = (Lagrange.basis (Finset.range k) (fun j => toField (x j)) i).eval (toField a) := by
  rw [basis, toField_productBut, Lagrange.basis, Polynomial.eval_prod]
  refine Finset.prod_congr rfl fun j _ => ?_
  simp [Lagrange.basisDivisor, toField_quotient, toField_sub, div_eq_inv_mul]

theorem toField_interpolate (x y : Nat → Byte) (k : Nat) (a : Byte) : toField (interpolate x y k a) =
    (Lagrange.interpolate (Finset.range k) (fun i => toField (x i)) fun i => toField (y i)).eval (toField a) := by
  rw [interpolate, toField_sum, Lagrange.interpolate_apply, Polynomial.eval_finsetSum]
  refine Finset.sum_congr rfl fun i _ => ?_
  rw [toField_mul, toField_basis, Polynomial.eval_mul, Polynomial.eval_C]

/-- The polynomial over the closure that a list of coefficients stands for. -/
noncomputable def coeffPoly (c : List Byte) : Polynomial Closure := c.foldr (fun b p => p * X + C (toField b)) 0

theorem coeffPoly_cons (b : Byte) (c : List Byte) : coeffPoly (b :: c) = coeffPoly c * X + C (toField b) := rfl

theorem horner_cons (b : Byte) (c : List Byte) (a : Byte) : horner (b :: c) a = gfMul (horner c a) a ^^^ b := rfl

theorem eval_coeffPoly (c : List Byte) (a : Byte) : (coeffPoly c).eval (toField a) = toField (horner c a) := by
  induction c with
  | nil => exact Polynomial.eval_zero.trans toField_zero.symm
  | cons b c ih =>
    rw [coeffPoly_cons, Polynomial.eval_add, Polynomial.eval_mul_X, Polynomial.eval_C, ih, horner_cons, toField_add,
      toField_mul]

theorem degree_coeffPoly_lt (c : List Byte) : (coeffPoly c).degree < c.length := by
  rw [Polynomial.degree_lt_iff_coeff_zero]
  induction c with
  | nil => exact fun m _ => Polynomial.coeff_zero m
  | cons b c ih =>
    intro m hm
    obtain ⟨m, rfl⟩ := Nat.exists_eq_add_of_le' (Nat.one_le_of_lt hm)
    rw [coeffPoly_cons, Polynomial.coeff_add, Polynomial.coeff_mul_X, Polynomial.coeff_C_succ, add_zero]
    exact ih m (Nat.le_of_succ_le_succ hm)

/-! ### The Lagrange properties (R155) -/

section
variable {x : Nat → Byte} {k : Nat} (hx : Distinct x k)
include hx

theorem basis_eq_ite {i j : Nat} (hi : i < k) (hj : j < k) : basis x k i (x j) = if i = j then 1 else 0 := by
  apply toField_injective
  rw [toField_basis]
  split
  · next hij =>
    subst hij
    rw [toField_one]
    exact Lagrange.eval_basis_self (toField_injOn_of_distinct hx) (Finset.mem_range.mpr hi)
  · next hij =>
    rw [toField_zero]
    exact Lagrange.eval_basis_of_ne (v := fun m => toField (x m)) hij (Finset.mem_range.mpr hj)

theorem sum_basis_eq_one (hk : k ≠ 0) (a : Byte) : sum (fun i => basis x k i a) k = 1 := by
  apply toField_injective
  simp only [toField_sum, toField_basis]
  rw [← Polynomial.eval_finsetSum, Lagrange.sum_basis (toField_injOn_of_distinct hx) (Finset.nonempty_range_iff.mpr hk),
    Polynomial.eval_one, toField_one]

/-- Interpolating the values of a polynomial of degree below `k` gives the polynomial: it is the only one with them. -/
theorem interpolate_horner {c : List Byte} (hc : c.length ≤ k) (a : Byte) :
    interpolate x (fun i => horner c (x i)) k a = horner c a := by
  have hdegree : (coeffPoly c).degree < (Finset.range k).card := by
    rw [Finset.card_range]
    exact (degree_coeffPoly_lt c).trans_le (Nat.cast_le.mpr hc)
  apply toField_injective
  rw [toField_interpolate, ← eval_coeffPoly, Lagrange.eq_interpolate_of_eval_eq (r := fun i => toField (horner c (x i)))
    (toField_injOn_of_distinct hx) hdegree fun i _ => eval_coeffPoly c (x i)]

end

theorem horner_zero (c : List Byte) : horner c 0 = c.headD 0 := by
  cases c with
  | nil => rfl
  | cons b c => rw [horner_cons, gfMul_zero_right]; exact BitVec.zero_xor

/-- A list without repetitions is a list of pairwise different points. -/
theorem exists_distinct_of_nodup {zs : List Byte} (h : zs.Nodup) :
    ∃ x k, Distinct x k ∧ zs = (List.range k).map x := by
  have hzs : zs = (List.range zs.length).map (zs.getD · 0) := List.ext_getElem (by simp) fun i hi _ => by simp [hi]
  rw [hzs, ← distinct_eq_true_iff, distinct_map_range_iff] at h
  exact ⟨_, _, h, hzs⟩

/-- Settles O44: `basis_eq_ite`, `sum_basis_eq_one` and `interpolate_horner`, on the points the list stands for. -/
theorem lagrangeProperties : Obligations.LagrangeProperties := by
  intro zs hzs
  obtain ⟨x, k, hx, rfl⟩ := exists_distinct_of_nodup hzs
  have hvalues : ∀ c, ((List.range k).map x).map (horner c) = (List.range k).map fun i => horner c (x i) :=
    fun c => List.map_map
  simp only [List.length_map, List.length_range, List.getElem_map, List.getElem_range, hvalues]
  refine ⟨fun i j hi hj => ?_, fun hne a => ?_, fun c _ hlen => ⟨fun a => ?_, ?_⟩⟩
  · rw [lagBasis_of_distinct hx hi, basis_eq_ite hx hi hj]
  · have hk : k ≠ 0 := fun hk => hne (by rw [hk]; rfl)
    rw [← sum_basis_eq_one hx hk a]
    exact sum_congr fun i hi => by rw [lagBasis_of_distinct hx hi, Option.getD_some]
  · rw [lagAt_eq_interpolate hx, interpolate_horner hx hlen]
  · rw [lagAtZero_eq_interpolate hx, interpolate_horner hx hlen, horner_zero]

end Sys2Proof.Machine
end

section
/-!
SUPPORT. The Polynomial commands (spec/41_polynomial.md R160 to R165): the operands are lists of the elements' bytes, on which
the polynomial functions give the spec's formulas, and each command ends with a result or with the first error that applies.
-/

namespace Sys2Proof.Machine

open Sys2Proof.Spec

/-! ### PEVAL and XDISTINCT (R160, R161) -/

theorem horner_polyOperand (s : State) : horner (polyOperand s) s.opa = evaluate (coef s) s.deg.toNat s.opa := by
  refine horner_eq_evaluate (by rw [polyOperand, List.length_map, List.length_range]) (fun k hk => ?_) _
  exact getD_map_range (x := coef s) (Nat.lt_succ_of_le hk)

/-- Settles O38: `horner_polyOperand`. -/
theorem pevalResult : Obligations.PevalResult :=
  ⟨rfl, fun s => (congrArg (finishRes s) (horner_polyOperand s)).trans (finishRes_eq s _)⟩

theorem distinct_xsOperand_iff (s : State) (k : Nat) : distinct (xsOperand s k) = true ↔ Distinct (xs s) k :=
  distinct_map_range_iff (xs s) k

/-- Settles O39: by whether the check for distinct x-values passes. -/
theorem xdistinctResult : Obligations.XdistinctResult := by
  refine ⟨rfl, fun s => ⟨fun h => ?_, fun h => ?_⟩⟩ <;> rw [← distinct_xsOperand_iff] at h
  · exact if_pos h
  · exact if_neg h

/-! ### LBASIS (R162) -/

theorem exec_lbasis_of_lt {s : State} (hi : s.opb.toNat < s.xcnt.toNat) : exec .lbasis s =
    finishResOr s .invZeroDenom (lagBasis ((List.range s.xcnt.toNat).map (xs s)) s.opb.toNat s.opa) :=
  if_neg hi.not_ge

/-- Settles O40: an index in range gives what `lagBasis` gives, with or without a zero denominator term. -/
theorem lbasisResult : Obligations.LbasisResult := by
  refine ⟨rfl, fun s => ⟨fun hi => if_pos hi, ?_, fun hi hne => ?_⟩⟩
  · rintro hi ⟨j, hj, hji, heq⟩
    rw [exec_lbasis_of_lt hi, lagBasis_of_eq hi hj hji heq]
    rfl
  · rw [exec_lbasis_of_lt hi, lagBasis_of_ne hi hne]
    rfl

/-! ### LINTERP and LINTERP0 (R154, R163, R164) -/

section
variable {s : State}

theorem pointsCheck_of_mismatch (h : s.xcnt ≠ s.ycnt) : pointsCheck s = some .valXyMismatch := if_pos h

theorem pointsCheck_of_empty (h : s.xcnt = s.ycnt) (h0 : s.xcnt = 0) : pointsCheck s = some .valPointsEmpty := by
  rw [pointsCheck, if_neg (not_not.mpr h), if_pos h0]

/-- Repeated x-values are found after the other two checks, which they pass: an empty list has none. -/
theorem pointsCheck_of_repeated (h : s.xcnt = s.ycnt) (hx : ¬ Distinct (xs s) s.xcnt.toNat) :
    pointsCheck s = some .valXDup := by
  have h0 : s.xcnt ≠ 0 := fun h0 => hx fun j hj => by rw [h0] at hj; exact absurd hj (Nat.not_lt_zero j)
  rw [← distinct_xsOperand_iff, Bool.not_eq_true] at hx
  rw [pointsCheck, if_neg (not_not.mpr h), if_neg h0, if_pos hx]

theorem pointsCheck_of_distinct (h : s.xcnt = s.ycnt) (h0 : s.xcnt ≠ 0) (hx : Distinct (xs s) s.xcnt.toNat) :
    pointsCheck s = none := by
  rw [← distinct_xsOperand_iff] at hx
  rw [pointsCheck, if_neg (not_not.mpr h), if_neg h0, if_neg (by rw [hx]; decide)]

/-- A failed check ends both commands. -/
theorem exec_linterp_of_failed {c : Cause} (h : pointsCheck s = some c) :
    exec .linterp s = raise s c ∧ exec .linterp0 s = raise s c := by
  simp only [exec, execLinterp, execLinterp0, h, and_self]

/-- After the checks both commands end with the value that the formula gives, at OPA and at 0. -/
theorem exec_linterp_of_passed (h : pointsCheck s = none) (hx : Distinct (xs s) s.xcnt.toNat) :
    exec .linterp s = finishRes s (interpolate (xs s) (ys s) s.xcnt.toNat s.opa) ∧
      exec .linterp0 s = finishRes s (interpolate (xs s) (ys s) s.xcnt.toNat 0) := by
  have hat : lagAt (xsOperand s s.xcnt.toNat) (ysOperand s s.xcnt.toNat) s.opa = _ := lagAt_eq_interpolate hx (ys s) s.opa
  have hzero : lagAtZero (xsOperand s s.xcnt.toNat) (ysOperand s s.xcnt.toNat) = _ := lagAtZero_eq_interpolate hx (ys s)
  simp only [exec, execLinterp, execLinterp0, h, hat, hzero, finishResOr, and_self]

end

/-- Settles O41: check by check, then `exec_linterp_of_passed`. -/
theorem linterpResult : Obligations.LinterpResult :=
  ⟨rfl, fun _ => ⟨fun h => (exec_linterp_of_failed (pointsCheck_of_mismatch h)).1,
    fun h h0 => (exec_linterp_of_failed (pointsCheck_of_empty h h0)).1,
    fun h hx => (exec_linterp_of_failed (pointsCheck_of_repeated h hx)).1,
    fun h h0 hx => (exec_linterp_of_passed (pointsCheck_of_distinct h h0 hx) hx).1⟩⟩

/-- Settles O42: check by check, then `exec_linterp_of_passed`. -/
theorem linterp0Result : Obligations.Linterp0Result :=
  ⟨rfl, fun _ => ⟨fun h => (exec_linterp_of_failed (pointsCheck_of_mismatch h)).2,
    fun h h0 => (exec_linterp_of_failed (pointsCheck_of_empty h h0)).2,
    fun h hx => (exec_linterp_of_failed (pointsCheck_of_repeated h hx)).2,
    fun h h0 hx => (exec_linterp_of_passed (pointsCheck_of_distinct h h0 hx) hx).2⟩⟩

/-- Settles O43: `lagAtZero_eq_lagAt`, on lists and on the operands. -/
theorem interpolationAtZeroAgrees : Obligations.InterpolationAtZeroAgrees :=
  ⟨lagAtZero_eq_lagAt, fun s h => by simp only [exec, execLinterp, execLinterp0, h, lagAtZero_eq_lagAt]⟩

/-! ### PBUILD (R165) -/

theorem exec_pbuild_of_raised {s s' : State} {c : Cause} (h : buildPoly s s.opa s.deg.toNat = .raised c s') :
    exec .pbuild s = raise s' c := by
  simp only [exec, execPbuild, h]

theorem coef_writePoly_answer {s : State} {b : Byte} {r : List Byte} {d k : Nat} (hr : d ≤ r.length) (hpos : 1 ≤ k)
    (hk : k ≤ d) : coef (writePoly s (b :: r.take d)) k = r.getD (k - 1) 0 := by
  refine (coef_writePoly ?_).trans (getD_cons_take hpos hk)
  rw [List.length_cons, List.length_take, Nat.min_eq_left hr]
  exact Nat.lt_succ_of_le hk

/-- Settles O45: what is written by `coef_writePoly`, what is not by `exec_otherElementsSame`. -/
theorem pbuildResult : Obligations.PbuildResult := by
  refine ⟨rfl, fun s => ⟨fun hdeg => ?_, fun r hdeg h hr => ?_, fun r hdeg h hr => ?_⟩⟩
  · have hexec := exec_pbuild_of_done (s := s) (by rw [hdeg]; exact buildPoly_zero s s.opa)
    exact ⟨_, hexec, rfl, coef_writePoly Nat.zero_lt_one, exec_otherElementsSame hexec⟩
  · have hexec := exec_pbuild_of_full hdeg h hr
    exact ⟨_, hexec, rfl, coef_writePoly (Nat.succ_pos _), fun _ hpos hk => coef_writePoly_answer hr hpos hk,
      exec_otherElementsSame hexec⟩
  · exact exec_pbuild_of_raised (buildPoly_of_short (BitVec.toNat_pos_of_ne_zero hdeg).ne' _ h hr)

end Sys2Proof.Machine
end

section
/-!
SUPPORT. The checks of SPLIT and of COMBINE (spec/42_split_combine.md R181, R182, R191): which error each condition raises, in
the order of the checks, and that a state passes them exactly where it meets `SplitOk` or `CombineOk`.
-/

namespace Sys2Proof.Machine

open Sys2Proof.Spec

theorem any_map_range_iff {α : Type} [DecidableEq α] (f : Nat → α) (a : α) (k : Nat) :
    ((List.range k).map f).any (fun y => decide (y = a)) = true ↔ ∃ j < k, f j = a := by
  simp

/-! ### SPLIT's checks (R181, R182) -/

theorem slen_ne_zero_of_lengthOk {s : State} (h : LengthOk s) : s.slen ≠ 0 := BitVec.toNat_ne.mpr (Nat.ne_of_gt h.1)

theorem not_lmax_lt_of_lengthOk {s : State} (h : LengthOk s) : ¬ s.lmax.val < s.slen.toNat := h.2.not_gt

theorem splitCheck_of_slen_gt {s : State} (h : s.lmax.val < s.slen.toNat) : splitCheck s = some .valLenRange := by
  have hslen : s.slen ≠ 0 := BitVec.toNat_ne.mpr (Nat.ne_of_gt (Nat.zero_lt_of_lt h))
  rw [splitCheck, if_neg hslen, if_pos h]

section
variable {s : State} (hlen : LengthOk s)
include hlen

theorem splitCheck_of_t_zero (ht : s.t = 0) : splitCheck s = some .valTRange := by
  rw [splitCheck, if_neg (slen_ne_zero_of_lengthOk hlen), if_neg (not_lmax_lt_of_lengthOk hlen), if_pos ht]

theorem splitCheck_of_n_zero (ht : s.t ≠ 0) (hn : s.n = 0) : splitCheck s = some .valNRange := by
  rw [splitCheck, if_neg (slen_ne_zero_of_lengthOk hlen), if_neg (not_lmax_lt_of_lengthOk hlen), if_neg ht, if_pos hn]

theorem splitCheck_of_t_gt_n (hn : s.n ≠ 0) (h : s.n.toNat < s.t.toNat) : splitCheck s = some .valTGtN := by
  have ht : s.t ≠ 0 := BitVec.toNat_ne.mpr (Nat.ne_of_gt (Nat.zero_lt_of_lt h))
  rw [splitCheck, if_neg (slen_ne_zero_of_lengthOk hlen), if_neg (not_lmax_lt_of_lengthOk hlen), if_neg ht, if_neg hn, if_pos h]

variable (hcounts : CountsOk s) (hexpl : ctrlXexpl s.ctrl = true)
include hcounts hexpl

open Classical in
/-- Past the counts, explicit x-values are checked in the terms of the spec: their number, a zero, a repetition. -/
theorem splitCheck_of_explicit : splitCheck s =
    if s.xcnt ≠ s.n then some .valXCount
    else if ∃ j < s.n.toNat, xs s j = 0 then some .valXZero
    else if ¬ Distinct (xs s) s.n.toNat then some .valXDup
    else none := by
  obtain ⟨ht, hn⟩ := hcounts
  have ht0 : s.t ≠ 0 := BitVec.toNat_ne.mpr (Nat.ne_of_gt ht)
  have hn0 : s.n ≠ 0 := BitVec.toNat_ne.mpr (Nat.ne_of_gt (ht.trans hn))
  have hforce : splitXs s = (List.range s.n.toNat).map (xs s) := if_pos hexpl
  rw [splitCheck, if_neg (slen_ne_zero_of_lengthOk hlen), if_neg (not_lmax_lt_of_lengthOk hlen), if_neg ht0, if_neg hn0,
    if_neg hn.not_gt, if_pos hexpl, hforce]
  simp only [any_map_range_iff, ← Bool.not_eq_true, distinct_map_range_iff]

theorem splitCheck_of_xcnt_ne (hxcnt : s.xcnt ≠ s.n) : splitCheck s = some .valXCount := by
  rw [splitCheck_of_explicit hlen hcounts hexpl, if_pos hxcnt]

variable (hxcnt : s.xcnt = s.n)
include hxcnt

theorem splitCheck_of_xs_zero (hzero : ∃ j < s.n.toNat, xs s j = 0) : splitCheck s = some .valXZero := by
  rw [splitCheck_of_explicit hlen hcounts hexpl, if_neg (not_not.mpr hxcnt), if_pos hzero]

theorem splitCheck_of_xs_repeated (hnz : ∀ j < s.n.toNat, xs s j ≠ 0) (hx : ¬ Distinct (xs s) s.n.toNat) :
    splitCheck s = some .valXDup := by
  have hzero : ¬ ∃ j < s.n.toNat, xs s j = 0 := fun ⟨j, hj, h0⟩ => hnz j hj h0
  rw [splitCheck_of_explicit hlen hcounts hexpl, if_neg (not_not.mpr hxcnt), if_neg hzero, if_pos hx]

end

/-- Settles O49: check by check; the x-values in force by `getElem_splitXs`. -/
theorem splitChecksInOrder : Obligations.SplitChecksInOrder := by
  intro s
  refine ⟨fun h => ?_, fun h => ?_, fun hlen h => ?_, fun hlen ht h => ?_, fun hlen hn h => ?_, fun hlen hc hx h => ?_,
    fun hlen hc hx hxcnt h => ?_, fun hlen hc hx hxcnt hzero h => ?_, splitXs_length s, fun j hj => ?_⟩
  · exact exec_split_of_check (splitCheck_of_slen_zero h)
  · exact exec_split_of_check (splitCheck_of_slen_gt h)
  · exact exec_split_of_check (splitCheck_of_t_zero hlen h)
  · exact exec_split_of_check (splitCheck_of_n_zero hlen ht h)
  · exact exec_split_of_check (splitCheck_of_t_gt_n hlen hn h)
  · exact exec_split_of_check (splitCheck_of_xcnt_ne hlen hc hx h)
  · exact exec_split_of_check (splitCheck_of_xs_zero hlen hc hx hxcnt h)
  · exact exec_split_of_check (splitCheck_of_xs_repeated hlen hc hx hxcnt hzero h)
  · rw [← splitXs_length] at hj
    rw [List.getElem?_eq_getElem hj, getElem_splitXs s hj]
    rfl

/-- A state that passes SPLIT's checks meets its conditions: each condition's failure would raise an error. -/
theorem splitOk_of_splitCheck {s : State} (h : splitCheck s = none) : SplitOk s := by
  obtain ⟨hslen, hlmax, ht, hn, -⟩ := splitCheck_eq_none h
  have hraised : ∀ c, splitCheck s ≠ some c := by simp [h]
  have hlen : LengthOk s := ⟨hslen, hlmax⟩
  have hcounts : CountsOk s := ⟨ht, hn⟩
  refine ⟨hlen, hcounts, fun hx => ?_⟩
  have hxcnt : s.xcnt = s.n := by_contra fun hne => hraised _ (splitCheck_of_xcnt_ne hlen hcounts hx hne)
  have hzero : ∀ j < s.n.toNat, xs s j ≠ 0 := fun j hj h0 =>
    hraised _ (splitCheck_of_xs_zero hlen hcounts hx hxcnt ⟨j, hj, h0⟩)
  exact ⟨hxcnt, hzero, by_contra fun hrep => hraised _ (splitCheck_of_xs_repeated hlen hcounts hx hxcnt hzero hrep)⟩

/-! ### COMBINE's checks (R191) -/

open Classical in
/-- The checks of COMBINE in the terms of the spec: no share, a zero index, a repeated index, unequal lengths, length 0,
length above LMAX. -/
theorem combineCheck_eq_ite (s : State) : combineCheck s =
    if s.scnt.toNat = 0 then some .valSharesEmpty
    else if ¬ ∀ j < s.scnt.toNat, shIdx s j ≠ 0 then some .valIdxZero
    else if ¬ Distinct (shIdx s) s.scnt.toNat then some .valIdxDup
    else if ¬ ∀ j < s.scnt.toNat, shareLen s j = shareLen s 0 then some .valShareLenMismatch
    else if shareLen s 0 = 0 then some .valShareLenZero
    else if s.lmax.val < (shareLen s 0).toNat then some .valLenRange
    else none := by
  have hidx : shareIndices s s.scnt.toNat = (List.range s.scnt.toNat).map (shIdx s) := rfl
  have hzero : (∃ j < s.scnt.toNat, shIdx s j = 0) ↔ ¬ ∀ j < s.scnt.toNat, shIdx s j ≠ 0 := by simp
  have hlens : (shareLens s s.scnt.toNat).any (fun l => decide (l ≠ shareLen s 0)) = true ↔
      ¬ ∀ j < s.scnt.toNat, shareLen s j = shareLen s 0 := by
    simp [shareLens]
  simp only [combineCheck, hidx, any_map_range_iff, hzero, ← Bool.not_eq_true, distinct_map_range_iff, hlens]

section
variable {s : State}

theorem combineCheck_of_idx_zero (hzero : ∃ j < s.scnt.toNat, shIdx s j = 0) : combineCheck s = some .valIdxZero := by
  obtain ⟨j, hj, h0⟩ := hzero
  rw [combineCheck_eq_ite, if_neg (by omega), if_pos fun hnz => hnz j hj h0]

variable (hnz : ∀ j < s.scnt.toNat, shIdx s j ≠ 0)
include hnz

theorem combineCheck_of_idx_repeated (hx : ¬ Distinct (shIdx s) s.scnt.toNat) : combineCheck s = some .valIdxDup := by
  have hk : s.scnt.toNat ≠ 0 := fun h0 => hx fun j hj => by omega
  rw [combineCheck_eq_ite, if_neg hk, if_neg (not_not.mpr hnz), if_pos hx]

variable (hx : Distinct (shIdx s) s.scnt.toNat)
include hx

theorem combineCheck_of_shareLen_ne (hlens : ∃ j < s.scnt.toNat, shareLen s j ≠ shareLen s 0) :
    combineCheck s = some .valShareLenMismatch := by
  obtain ⟨j, hj, hne⟩ := hlens
  rw [combineCheck_eq_ite, if_neg (by omega), if_neg (not_not.mpr hnz), if_neg (not_not.mpr hx),
    if_pos fun hlens => hne (hlens j hj)]

variable (hpos : 1 ≤ s.scnt.toNat) (hlens : ∀ j < s.scnt.toNat, shareLen s j = shareLen s 0)
include hpos hlens

/-- Past the checks on the indices and on equal lengths, the common length is checked. -/
theorem combineCheck_of_shareLen_eq : combineCheck s =
    if shareLen s 0 = 0 then some .valShareLenZero
    else if s.lmax.val < (shareLen s 0).toNat then some .valLenRange
    else none := by
  rw [combineCheck_eq_ite, if_neg (by omega), if_neg (not_not.mpr hnz), if_neg (not_not.mpr hx),
    if_neg (not_not.mpr hlens)]

theorem combineCheck_of_shareLen_zero (h : shareLen s 0 = 0) : combineCheck s = some .valShareLenZero := by
  rw [combineCheck_of_shareLen_eq hnz hx hpos hlens, if_pos h]

theorem combineCheck_of_shareLen_gt (h : s.lmax.val < (shareLen s 0).toNat) : combineCheck s = some .valLenRange := by
  have h0 : shareLen s 0 ≠ 0 := BitVec.toNat_ne.mpr (Nat.ne_of_gt (Nat.zero_lt_of_lt h))
  rw [combineCheck_of_shareLen_eq hnz hx hpos hlens, if_neg h0, if_pos h]

end

/-- Settles O53: check by check. -/
theorem combineChecksInOrder : Obligations.CombineChecksInOrder := by
  intro s
  refine ⟨fun h => ?_, fun h => ?_, fun hnz h => ?_, fun hnz hx h => ?_, fun hpos hnz hx hlens h => ?_,
    fun hpos hnz hx hlens h => ?_⟩
  · exact exec_combine_of_check (combineCheck_of_scnt_zero h)
  · exact exec_combine_of_check (combineCheck_of_idx_zero h)
  · exact exec_combine_of_check (combineCheck_of_idx_repeated hnz h)
  · exact exec_combine_of_check (combineCheck_of_shareLen_ne hnz hx h)
  · exact exec_combine_of_check (combineCheck_of_shareLen_zero hnz hx hpos hlens h)
  · exact exec_combine_of_check (combineCheck_of_shareLen_gt hnz hx hpos hlens h)

/-- A state meets COMBINE's conditions exactly where it passes the checks. -/
theorem combineCheck_eq_none_iff {s : State} : combineCheck s = none ↔ CombineOk s := by
  constructor
  · intro h
    obtain ⟨hpos, hlen, hle, hx⟩ := combineCheck_eq_none h
    have hnz : ∀ j < s.scnt.toNat, shIdx s j ≠ 0 := fun j hj h0 => by
      simp [combineCheck_of_idx_zero ⟨j, hj, h0⟩] at h
    exact ⟨hpos, hnz, (distinct_map_range_iff (shIdx s) _).mp hx, fun _ => shareLen_eq_of_combineCheck h, hlen, hle⟩
  · rintro ⟨hpos, hnz, hx, hlens, hlen, hle⟩
    have h0 : shareLen s 0 ≠ 0 := BitVec.toNat_ne.mpr (Nat.ne_of_gt hlen)
    rw [combineCheck_of_shareLen_eq hnz hx hpos hlens, if_neg h0, if_neg hle.not_gt]

end Sys2Proof.Machine
end

section
/-!
SUPPORT. The results of SPLIT (spec/42_split_combine.md R183 to R186): what it draws, the slots it writes and what it leaves
unchanged, with every request answered in full, with a short answer, and with threshold 1.
-/

namespace Sys2Proof.Machine

open Sys2Proof.Spec

/-! ### What SPLIT draws (R183, R184) -/

/-- For degree 0 the pass makes no request: each polynomial is the secret's byte alone. -/
theorem drawPolys_degree_zero (s : State) (bs : List Byte) : drawPolys s 0 bs = .done (bs.map ([·])) s := by
  induction bs with
  | nil => rfl
  | cons b bs ih => exact drawPolys_cons_of_done (buildPoly_zero s b) ih

/-- A source whose answer number `p` is the first that is short: the pass stops there, with that request closed (R82). -/
theorem drawPolys_of_short {s : State} {d p : Nat} {bs r : List Byte} {answer : Nat → List Byte} (hd : d ≠ 0)
    (hp : p < bs.length) (h : RngSupplies s p d answer) (hshort : rngAnswerAt s p d = .bytes r) (hr : r.length < d) :
    drawPolys s d bs = .raised .valRngShort (closeRequest (afterRequests s p d) d r.length) := by
  induction bs generalizing s p answer with
  | nil => exact absurd hp (Nat.not_lt_zero p)
  | cons b bs ih =>
    cases p with
    | zero => rw [drawPolys, buildPoly_of_short hd b hshort hr]; rfl
    | succ p =>
      obtain ⟨hans, hlen⟩ := h.head
      rw [← rngAnswerAt_closeRequest s d d] at hshort
      rw [drawPolys, buildPoly_of_full hd b hans hlen]
      simp only [ih (Nat.lt_of_succ_lt_succ hp) h.tail hshort, afterRequests_closeRequest]

/-- A polynomial of degree at least 1 that was built used up one full answer. -/
theorem rngAnswerAt_of_buildPoly_done {s s' : State} {b : Byte} {d : Nat} {c : List Byte} (hd : d ≠ 0)
    (h : buildPoly s b d = .done c s') :
    ∃ r, rngAnswerAt s 0 d = .bytes r ∧ d ≤ r.length ∧ s' = closeRequest s d d := by
  cases hans : rngAnswerAt s 0 d with
  | never => rw [buildPoly_of_never hd b hans] at h; cases h
  | bytes r =>
    by_cases hr : r.length < d
    · rw [buildPoly_of_short hd b hans hr] at h; cases h
    · rw [buildPoly_of_full hd b hans (not_lt.mp hr)] at h
      cases h
      exact ⟨r, rfl, not_lt.mp hr, rfl⟩

/-- Where the pass came to its end, the source answered every request in full. -/
theorem rngSupplies_of_drawPolys_done {s s' : State} {d : Nat} {bs : List Byte} {polys : List (List Byte)} (hd : d ≠ 0)
    (h : drawPolys s d bs = .done polys s') : ∃ answer, RngSupplies s bs.length d answer := by
  induction bs generalizing s polys with
  | nil => exact ⟨fun _ => [], nofun⟩
  | cons b bs ih =>
    unfold drawPolys at h
    split at h
    · cases h
    · cases h
    · next c s1 hb =>
      split at h
      · cases h
      · cases h
      · next hbs =>
        cases h
        obtain ⟨r, hans, hlen, rfl⟩ := rngAnswerAt_of_buildPoly_done hd hb
        obtain ⟨answer, hsupplies⟩ := ih hbs
        refine ⟨fun j => j.casesOn r answer, fun j hj => ?_⟩
        cases j with
        | zero => exact ⟨hans, hlen⟩
        | succ j =>
          rw [← rngAnswerAt_closeRequest s d d]
          exact hsupplies j (Nat.lt_of_succ_lt_succ hj)

/-- A SPLIT that succeeds passed its checks, and the source answered its requests in full. -/
theorem splitOk_of_success {s t : State} (h : exec .split s = .next t) (hcode : t.errcode = 0x00) :
    SplitOk s ∧ ∃ answer, 2 ≤ s.t.toNat → RngSupplies s s.slen.toNat (s.t.toNat - 1) answer := by
  simp only [exec, execSplit] at h
  split at h
  · cases h
    exact absurd hcode (causeCode_ne_zero _)
  · next hcheck =>
    refine ⟨splitOk_of_splitCheck hcheck, ?_⟩
    split at h
    · cases h
    · cases h
      exact absurd hcode (causeCode_ne_zero _)
    · next hdraw =>
      by_cases ht : 2 ≤ s.t.toNat
      · obtain ⟨answer, hsupplies⟩ := rngSupplies_of_drawPolys_done (by omega) hdraw
        rw [secretOperand_length] at hsupplies
        exact ⟨answer, fun _ => hsupplies⟩
      · exact ⟨fun _ => [], fun ht' => absurd ht' ht⟩

theorem exec_split_of_raised {s s' : State} {c : Cause} (hc : splitCheck s = none)
    (h : drawPolys s (s.t.toNat - 1) (secretOperand s) = .raised c s') : exec .split s = raise s' c := by
  simp only [exec, execSplit, hc, h]

/-- Settles O51: the pass stops at position `p` by `drawPolys_of_short`. -/
theorem splitShortAnswer : Obligations.SplitShortAnswer := by
  intro s answer p r hok ht hp hsupplies hshort hr
  rw [← secretOperand_length] at hp
  have hdraw := drawPolys_of_short (by omega) hp hsupplies hshort hr
  have hrng : (s.rng.drop p).tail = s.rng.drop (p + 1) := List.tail_drop
  rw [exec_split_of_raised (splitCheck_of_splitOk hok) hdraw, ← hrng]
  rfl

/-! ### The slots SPLIT writes (R185) -/

/-- With threshold 1 SPLIT writes the slots and makes no request, whatever the source would answer. -/
theorem exec_split_of_threshold_one {s : State} (answer : Nat → List Byte) (hok : SplitOk s) (ht : s.t.toNat = 1) :
    exec .split s = .next (succeed (setMem s (writeSlots s.mem 0 s.slen (splitPolys s answer) (splitXs s)))) := by
  have hpolys : splitPolys s answer = (secretOperand s).map ([·]) := by
    simp only [splitPolys, ht, Nat.sub_self, List.take_zero]
    exact List.ext_getElem (by simp) (by simp)
  have hdraw : drawPolys s (s.t.toNat - 1) (secretOperand s) = .done (splitPolys s answer) s := by
    rw [hpolys, ht]
    exact drawPolys_degree_zero s _
  exact exec_split_of_done (splitCheck_of_splitOk hok) hdraw

/-- The two bytes of a length, the high one before the low one, are the length (R67). -/
theorem append_halfBytes (v : Half) : (v.extractLsb' 8 8 ++ v.extractLsb' 0 8 : Half) = v :=
  (BitVec.extractLsb'_append_extractLsb'_eq_extractLsb' rfl).trans BitVec.extractLsb'_eq_self

theorem memLookup_writeSlot_idx {m : Memory} {i : Nat} {x : Byte} {len : Half} {bytes : List Byte} (hi : i < 0x100) :
    memLookup (writeSlot m i x len bytes) (Loc.addr (.shIdx i)) = some x := by
  rw [writeSlot, memLookup_memInsertList_of_outside _ _ (by simp only [Loc.addr]; omega),
    memLookup_memInsertList_of_outside _ _ (by simp only [Loc.addr]; omega), memLookup_memInsert_self]

theorem memLookup_writeSlot_len {m : Memory} {i j : Nat} {x : Byte} {len : Half} {bytes : List Byte} (hi : i < 0x100)
    (hj : j < 2) : memLookup (writeSlot m i x len bytes) (Loc.addr (.shLen i) + j) = (halfBytes len)[j]? := by
  rw [writeSlot, memLookup_memInsertList_of_outside _ _ (by simp only [Loc.addr]; omega), memLookup_memInsertList,
    if_pos ⟨Nat.le_add_right _ _, Nat.add_lt_add_left hj _⟩, Nat.add_sub_cancel_left]

section
variable (s : State) {m : Memory} {j : Nat} {len : Half} {polys : List (List Byte)} {xs : List Byte} (hj : j < xs.length)
  (hxs : xs.length ≤ 0x100) (hpolys : polys.length ≤ 0x10000)
include hj hxs hpolys

theorem shIdx_writeSlots : shIdx (setMem s (writeSlots m 0 len polys xs)) j = xs[j] := by
  have hslot : SlotAddr polys.length (0 + j) (Loc.addr (.shIdx j)) := Or.inl (by rw [Nat.zero_add])
  obtain ⟨m', hm'⟩ := memLookup_writeSlots_of_slotAddr (m := m) (len := len) hj (by omega) hpolys hslot
  rw [Nat.zero_add, memLookup_writeSlot_idx (by omega)] at hm'
  rw [shIdx, elemByte, bufferByte, setMem_mem, hm', Option.getD_some]

theorem bufferByte_writeSlots_len {q : Nat} (hq : q < 2) :
    bufferByte (setMem s (writeSlots m 0 len polys xs)) (Loc.addr (.shLen j) + q) = (halfBytes len)[q] := by
  have hslot : SlotAddr polys.length (0 + j) (Loc.addr (.shLen j) + q) := by
    rw [Nat.zero_add]
    exact Or.inr (Or.inl ⟨Nat.le_add_right _ _, Nat.add_lt_add_left hq _⟩)
  obtain ⟨m', hm'⟩ := memLookup_writeSlots_of_slotAddr (m := m) (len := len) hj (by omega) hpolys hslot
  rw [Nat.zero_add, memLookup_writeSlot_len (by omega) hq, List.getElem?_eq_getElem hq] at hm'
  rw [bufferByte, setMem_mem, hm', Option.getD_some]

theorem shareLen_writeSlots : shareLen (setMem s (writeSlots m 0 len polys xs)) j = len := by
  have hlow := bufferByte_writeSlots_len s (m := m) (len := len) hj hxs hpolys (q := 0) (by decide)
  have hhigh := bufferByte_writeSlots_len s (m := m) (len := len) hj hxs hpolys (q := 1) (by decide)
  rw [Nat.add_zero] at hlow
  rw [shareLen, hlow, hhigh]
  exact append_halfBytes len

end

/-- Slot `i` of `t` holds share `j` of a SPLIT in state `s` whose request number `p` is answered with `answer p`: its
x-value, the secret's length and, at every position, the value there of the position's polynomial. -/
def HoldsShare (s : State) (answer : Nat → List Byte) (j : Nat) (t : State) (i : Nat) : Prop :=
  shIdx t i = xValue s j ∧ shareLen t i = s.slen ∧ ∀ p < s.slen.toNat,
    elemByte t (.shData i p) = evaluate (coefficient s answer p) (s.t.toNat - 1) (xValue s j)

section
variable {s t : State} {answer : Nat → List Byte} {i j : Nat} (h : HoldsShare s answer j t i)
include h

theorem HoldsShare.idx_eq : shIdx t i = xValue s j := h.1

theorem HoldsShare.len_eq : shareLen t i = s.slen := h.2.1

theorem HoldsShare.data_eq {p : Nat} (hp : p < s.slen.toNat) :
    elemByte t (.shData i p) = evaluate (coefficient s answer p) (s.t.toNat - 1) (xValue s j) := h.2.2 p hp

end

theorem holdsShare_writeSlots {s : State} {answer : Nat → List Byte} (w : State)
    (hanswer : ∀ p < s.slen.toNat, s.t.toNat - 1 ≤ (answer p).length) {j : Nat} (hj : j < s.n.toNat) :
    HoldsShare s answer j (setMem w (writeSlots s.mem 0 s.slen (splitPolys s answer) (splitXs s))) j := by
  have hxs : (splitXs s).length ≤ 0x100 := by rw [splitXs_length]; exact s.n.isLt.le
  have hpolys : (splitPolys s answer).length ≤ 0x10000 := by rw [splitPolys_length]; exact s.slen.isLt.le
  have hj' : j < (splitXs s).length := by rwa [splitXs_length]
  refine ⟨?_, shareLen_writeSlots w hj' hxs hpolys, fun p hp => elemByte_split_data w hj hp (hanswer p hp)⟩
  rw [shIdx_writeSlots w hj' hxs hpolys, getElem_splitXs]

section
variable {s : State} {answer : Nat → List Byte} (hok : SplitOk s)
  (hsupplies : 2 ≤ s.t.toNat → RngSupplies s s.slen.toNat (s.t.toNat - 1) answer)
include hok hsupplies

/-- A SPLIT that passes its checks, the source answering in full, writes the slots and closes the requests it made. -/
theorem exec_split_of_splitOk : exec .split s =
    .next (succeed (setMem (if 2 ≤ s.t.toNat then afterRequests s s.slen.toNat (s.t.toNat - 1) else s)
      (writeSlots s.mem 0 s.slen (splitPolys s answer) (splitXs s)))) := by
  split
  · next ht => exact exec_split_of_supplies hok ht (hsupplies ht)
  · next ht =>
    have ⟨_, ⟨hpos, _⟩, _⟩ := hok
    exact exec_split_of_threshold_one answer hok (by omega)

/-- After such a SPLIT slot `j` holds share `j`. -/
theorem holdsShare_split {t : State} (h : exec .split s = .next t) {j : Nat} (hj : j < s.n.toNat) :
    HoldsShare s answer j t j := by
  rw [exec_split_of_splitOk hok hsupplies] at h
  cases h
  refine holdsShare_writeSlots _ (fun p hp => ?_) hj
  by_cases ht : 2 ≤ s.t.toNat
  · exact (hsupplies ht p hp).2
  · omega

end

/-- Settles O50: the slots by `holdsShare_split`, the frame by `exec_otherElementsSame`. -/
theorem splitResult : Obligations.SplitResult := by
  refine ⟨rfl, fun s answer hok hsupplies => ?_⟩
  have hexec := exec_split_of_splitOk hok hsupplies
  refine ⟨_, hexec, ?_, fun j hj => holdsShare_split hok hsupplies hexec hj, exec_otherElementsSame hexec⟩
  split <;> rfl

theorem evaluate_degree_zero (f : Nat → Byte) (x : Byte) : evaluate f 0 x = f 0 := by
  rw [evaluate, sum_succ', power, gfMul_one_right]
  exact BitVec.xor_zero

/-- Settles O52: the polynomial of degree 0 has one value, the secret's byte. -/
theorem splitThresholdOneCopiesSecret : Obligations.SplitThresholdOneCopiesSecret := by
  intro s hok ht
  replace ht : s.t.toNat = 1 := by rw [ht]; rfl
  have hexec := exec_split_of_threshold_one (fun _ => []) hok ht
  refine ⟨_, hexec, rfl, rfl, rfl, rfl, fun j hj p hp => ?_⟩
  have hshare := holdsShare_split (answer := fun _ => []) hok (by omega) hexec hj
  rw [hshare.data_eq hp, ht, evaluate_degree_zero]
  rfl

end Sys2Proof.Machine
end

section
/-!
SUPPORT. The results of COMBINE (spec/42_split_combine.md R192 to R194 (a)): the secret it writes is the interpolation at zero
of the shares' bytes, which does not depend on the order of the shares.
-/

namespace Sys2Proof.Machine

open Sys2Proof.Spec

/-! ### The secret COMBINE writes (R192) -/

/-- The secret's byte at position `p`: the sum over the shares of byte `p` times L_i(0). -/
def combinedByte (s : State) (p : Nat) : Byte :=
  interpolate (shIdx s) (fun j => elemByte s (.shData j p)) s.scnt.toNat 0

theorem combineBytes_of_distinct {s : State} (hx : Distinct (shIdx s) s.scnt.toNat) (ps : List Nat) :
    combineBytes s s.scnt.toNat ps = some (ps.map (combinedByte s)) := by
  induction ps with
  | nil => rfl
  | cons p ps ih =>
    have hp : lagAtZero (shareIndices s s.scnt.toNat) (shareColumn s s.scnt.toNat p) = some (combinedByte s p) :=
      lagAtZero_eq_interpolate hx _
    rw [combineBytes, hp, ih]
    rfl

theorem exec_combine_of_combineOk {s : State} (h : CombineOk s) : exec .combine s =
    .next (succeed (writeSecret (setSlen s (shareLen s 0)) ((List.range (shareLen s 0).toNat).map (combinedByte s)))) := by
  have hcheck := combineCheck_eq_none_iff.mpr h
  obtain ⟨-, -, hx, -⟩ := h
  simp only [exec, execCombine, hcheck, combineBytes_of_distinct hx, finish]

theorem sec_writeSecret (s : State) {bytes : List Byte} {p : Nat} (hp : p < bytes.length) :
    sec (writeSecret s bytes) p = bytes[p] := by
  have hread := bufferByte_setMem_memInsertList s (Loc.addr (.sec 0)) (Loc.addr (.sec p)) bytes
  have hsub : Loc.addr (.sec p) - Loc.addr (.sec 0) = p := by simp [Loc.addr]
  rw [dif_pos (by simp only [Loc.addr]; omega)] at hread
  refine hread.trans ?_
  simp only [hsub]

/-- COMBINE ends with success, with length `len` and the bytes `byte` as the secret. -/
def CombinesTo (u : State) (len : Half) (byte : Nat → Byte) : Prop :=
  ∃ v, exec .combine u = .next v ∧ v.status = 0x80 ∧ v.errcode = 0x00 ∧ v.slen = len ∧
    ∀ p < len.toNat, sec v p = byte p

theorem CombinesTo.congr {u : State} {len : Half} {f g : Nat → Byte} (h : CombinesTo u len f)
    (hfg : ∀ p < len.toNat, f p = g p) : CombinesTo u len g := by
  obtain ⟨v, hexec, hstatus, hcode, hslen, hsec⟩ := h
  exact ⟨v, hexec, hstatus, hcode, hslen, fun p hp => (hsec p hp).trans (hfg p hp)⟩

theorem sec_combine (s w : State) {n p : Nat} (hp : p < n) :
    sec (succeed (writeSecret w ((List.range n).map (combinedByte s)))) p = combinedByte s p := by
  have hsec := sec_writeSecret w (bytes := (List.range n).map (combinedByte s)) (p := p) (by simpa using hp)
  rwa [List.getElem_map, List.getElem_range] at hsec

theorem combinesTo_of_combineOk {s : State} (h : CombineOk s) : CombinesTo s (shareLen s 0) (combinedByte s) :=
  ⟨_, exec_combine_of_combineOk h, rfl, rfl, rfl, fun _ hp => sec_combine s _ hp⟩

/-- Settles O54: the secret by `sec_combine`, the frame by `exec_otherElementsSame`. -/
theorem combineResult : Obligations.CombineResult := by
  refine ⟨rfl, fun s h => ?_⟩
  have hexec := exec_combine_of_combineOk h
  exact ⟨_, hexec, rfl, fun _ hp => sec_combine s _ hp, exec_otherElementsSame hexec⟩

/-! ### One share (R193) -/

theorem interpolate_one (x y : Nat → Byte) (a : Byte) : interpolate x y 1 a = y 0 := by
  have hbasis : basis x 1 0 a = 1 := productBut_succ_self 0 _
  rw [interpolate, sum, sum, hbasis, gfMul_one_right]
  exact BitVec.zero_xor

/-- Settles O55: one share passes the checks, and interpolation through one point is constant. -/
theorem combineOfOneShareCopies : Obligations.CombineOfOneShareCopies := by
  intro s hscnt hidx hpos hle
  have hk : s.scnt.toNat = 1 := by rw [hscnt]; rfl
  have hok : CombineOk s := by
    unfold CombineOk
    rw [hk]
    refine ⟨le_rfl, fun j hj => ?_, fun j hj i hi => by omega, fun j hj => ?_, hpos, hle⟩ <;>
      obtain rfl := Nat.lt_one_iff.mp hj
    · exact hidx
    · rfl
  exact (combinesTo_of_combineOk hok).congr fun p _ => by rw [combinedByte, hk, interpolate_one]

/-! ### The order of the shares (R194 (a)) -/

/-- An injective placing of `k` slots into `k` slots reaches every slot. -/
theorem exists_place_eq {place : Nat → Nat} {k j : Nat} (hlt : ∀ i < k, place i < k)
    (hinj : ∀ i j, i < k → j < k → place i = place j → i = j) (hj : j < k) : ∃ i < k, place i = j := by
  have hsurj := Finset.surjOn_of_injOn_of_card_le place (s := Finset.range k) (t := Finset.range k)
    (fun i hi => Finset.mem_coe.mpr (Finset.mem_range.mpr (hlt i (Finset.mem_range.mp hi))))
    (fun i hi j hj => hinj i j (Finset.mem_range.mp hi) (Finset.mem_range.mp hj)) le_rfl
  obtain ⟨i, hi, rfl⟩ := hsurj (Finset.mem_coe.mpr (Finset.mem_range.mpr hj))
  exact ⟨i, Finset.mem_range.mp hi, rfl⟩

theorem distinct_iff_injective {x : Nat → Byte} {k : Nat} :
    Distinct x k ↔ ∀ i j, i < k → j < k → x i = x j → i = j :=
  ⟨fun hx _ _ hi hj heq => by_contra fun hne => ne_of_distinct hx hi hj hne heq,
    fun h j hj i hi heq => hi.ne (h i j (hi.trans hj) hj heq)⟩

/-- Interpolation does not depend on the order of the points: both orders give the one polynomial of degree below `k`
through them. -/
theorem interpolate_of_placed {x y x' y' : Nat → Byte} {place : Nat → Nat} {k : Nat} (hx : Distinct x k)
    (hx' : Distinct x' k) (hlt : ∀ i < k, place i < k) (hxs : ∀ i < k, x' i = x (place i))
    (hys : ∀ i < k, y' i = y (place i)) (a : Byte) : interpolate x' y' k a = interpolate x y k a := by
  apply toField_injective
  have hinj := toField_injOn_of_distinct hx
  rw [toField_interpolate, toField_interpolate]
  refine congrArg _ (Eq.symm (Lagrange.eq_interpolate_of_eval_eq _ (toField_injOn_of_distinct hx') ?_ fun i hi => ?_))
  · exact Lagrange.degree_interpolate_lt _ hinj
  · have hi := Finset.mem_range.mp hi
    simp only [hxs i hi, hys i hi]
    exact Lagrange.eval_interpolate_at_node _ hinj (Finset.mem_range.mpr (hlt i hi))

section
variable {s u : State} {i j : Nat} (h : SameShare s j u i)
include h

theorem SameShare.idx_eq : shIdx u i = shIdx s j := h.1

theorem SameShare.len_eq : shareLen u i = shareLen s j := h.2.1

theorem SameShare.data_eq {p : Nat} (hp : p < (shareLen s j).toNat) (hlmax : p < s.lmax.val) :
    elemByte u (.shData i p) = elemByte s (.shData j p) := h.2.2 p hp hlmax

end

section
variable {s u : State} {place : Nat → Nat} (hlt : ∀ i < s.scnt.toNat, place i < s.scnt.toNat)
  (hinj : ∀ i j, i < s.scnt.toNat → j < s.scnt.toNat → place i = place j → i = j)
  (hshare : ∀ i < s.scnt.toNat, SameShare s (place i) u i)
include hlt hinj hshare

theorem idx_nonzero_iff_of_placed :
    (∀ i < s.scnt.toNat, shIdx u i ≠ 0) ↔ ∀ j < s.scnt.toNat, shIdx s j ≠ 0 := by
  constructor
  · intro h j hj
    obtain ⟨i, hi, rfl⟩ := exists_place_eq hlt hinj hj
    exact (hshare i hi).idx_eq ▸ h i hi
  · intro h i hi
    rw [(hshare i hi).idx_eq]
    exact h (place i) (hlt i hi)

theorem distinct_idx_iff_of_placed : Distinct (shIdx u) s.scnt.toNat ↔ Distinct (shIdx s) s.scnt.toNat := by
  simp only [distinct_iff_injective]
  constructor
  · intro h j j' hj hj' heq
    obtain ⟨i, hi, rfl⟩ := exists_place_eq hlt hinj hj
    obtain ⟨i', hi', rfl⟩ := exists_place_eq hlt hinj hj'
    rw [← (hshare i hi).idx_eq, ← (hshare i' hi').idx_eq] at heq
    rw [h i i' hi hi' heq]
  · intro h i i' hi hi' heq
    rw [(hshare i hi).idx_eq, (hshare i' hi').idx_eq] at heq
    exact hinj i i' hi hi' (h _ _ (hlt i hi) (hlt i' hi') heq)

theorem shareLen_eq_iff_of_placed (hk : 0 < s.scnt.toNat) :
    (∀ i < s.scnt.toNat, shareLen u i = shareLen u 0) ↔ ∀ j < s.scnt.toNat, shareLen s j = shareLen s 0 := by
  constructor
  · intro h
    have hplaced : ∀ j < s.scnt.toNat, shareLen s j = shareLen u 0 := fun j hj => by
      obtain ⟨i, hi, rfl⟩ := exists_place_eq hlt hinj hj
      rw [← (hshare i hi).len_eq, h i hi]
    exact fun j hj => (hplaced j hj).trans (hplaced 0 hk).symm
  · intro h i hi
    rw [(hshare i hi).len_eq, (hshare 0 hk).len_eq, h _ (hlt i hi), h _ (hlt 0 hk)]

/-- The checks find the same first error, whatever the order of the shares. -/
theorem combineCheck_of_placed (hlmax : u.lmax = s.lmax) (hscnt : u.scnt = s.scnt) : combineCheck u = combineCheck s := by
  rw [combineCheck_eq_ite u, combineCheck_eq_ite s, hlmax, hscnt, distinct_idx_iff_of_placed hlt hinj hshare]
  by_cases hk : s.scnt.toNat = 0
  · rw [if_pos hk, if_pos hk]
  · replace hk := Nat.pos_of_ne_zero hk
    simp only [idx_nonzero_iff_of_placed hlt hinj hshare, shareLen_eq_iff_of_placed hlt hinj hshare hk]
    by_cases hlens : ∀ j < s.scnt.toNat, shareLen s j = shareLen s 0
    · rw [(hshare 0 hk).len_eq, hlens _ (hlt 0 hk)]
    · simp only [if_pos hlens]

/-- The secret's bytes are the same, whatever the order of the shares. -/
theorem combinedByte_of_placed (hscnt : u.scnt = s.scnt) (hs : CombineOk s) {p : Nat} (hp : p < (shareLen s 0).toNat) :
    combinedByte u p = combinedByte s p := by
  obtain ⟨-, -, hx, hlens, -, hle⟩ := hs
  have hx' := (distinct_idx_iff_of_placed hlt hinj hshare).mpr hx
  rw [combinedByte, combinedByte, hscnt]
  refine interpolate_of_placed hx hx' hlt (fun i hi => (hshare i hi).idx_eq) (fun i hi => ?_) 0
  exact (hshare i hi).data_eq (by rwa [hlens _ (hlt i hi)]) (by omega)

end

/-- Settles O57: the same first error by `combineCheck_of_placed`, else the same secret by `combinedByte_of_placed`. -/
theorem shareOrderIrrelevant : Obligations.ShareOrderIrrelevant := by
  intro s u place hlmax hscnt hlt hinj hshare
  have hcheck := combineCheck_of_placed hlt hinj hshare hlmax hscnt
  cases hc : combineCheck s with
  | some c =>
    exact ⟨_, _, exec_combine_of_check hc, exec_combine_of_check (hcheck.trans hc), rfl, rfl,
      fun h => absurd h (causeCode_ne_zero c)⟩
  | none =>
    have hs := combineCheck_eq_none_iff.mp hc
    obtain ⟨t, ht, hstatus, hcode, hslen, hsec⟩ := combinesTo_of_combineOk hs
    obtain ⟨v, hv, hstatus', hcode', hslen', hsec'⟩ :=
      combinesTo_of_combineOk (combineCheck_eq_none_iff.mp (hcheck.trans hc))
    have hlen : shareLen u 0 = shareLen s 0 := by
      have ⟨hk, _, _, hlens, _⟩ := hs
      rw [(hshare 0 hk).len_eq, hlens _ (hlt 0 hk)]
    rw [hlen] at hslen' hsec'
    refine ⟨t, v, ht, hv, hstatus.trans hstatus'.symm, hcode.trans hcode'.symm,
      fun _ => ⟨hslen.trans hslen'.symm, fun p hp => ?_⟩⟩
    rw [hslen] at hp
    rw [hsec p hp, hsec' p hp, combinedByte_of_placed hlt hinj hshare hscnt hs hp]

end Sys2Proof.Machine
end

section
/-!
SUPPORT. SPLIT and COMBINE together (spec/42_split_combine.md R193, R194 (b)): shares of a successful SPLIT pass COMBINE's
checks, T or more of them give the secret, and two shares of a threshold-3 split give the sum R193 states.
-/

namespace Sys2Proof.Machine

open Sys2Proof.Spec

/-! ### The x-values of a SPLIT (R182) -/

section
variable {s : State} (hok : SplitOk s)
include hok

theorem xValue_ne_zero {j : Nat} (hj : j < s.n.toNat) : xValue s j ≠ 0 := by
  obtain ⟨-, -, hxs⟩ := hok
  unfold xValue
  split
  · next hx =>
    obtain ⟨-, hzero, -⟩ := hxs hx
    exact hzero j hj
  · have hn := s.n.isLt
    bv_omega

theorem distinct_xValue : Distinct (xValue s) s.n.toNat := by
  obtain ⟨-, -, hxs⟩ := hok
  cases hx : ctrlXexpl s.ctrl with
  | true =>
    obtain ⟨-, -, hdistinct⟩ := hxs hx
    simpa only [Distinct, xValue, hx, if_true] using hdistinct
  | false =>
    intro j hj i hi
    have hn := s.n.isLt
    simp only [xValue, hx, Bool.false_eq_true, if_false]
    bv_omega

end

/-! ### Interpolating the shares (R155, R193) -/

theorem interpolate_congr {x y y' : Nat → Byte} {k : Nat} (h : ∀ i < k, y i = y' i) (a : Byte) :
    interpolate x y k a = interpolate x y' k a :=
  sum_congr fun i hi => by rw [h i hi]

theorem evaluate_eq_horner (f : Nat → Byte) (d : Nat) (x : Byte) :
    evaluate f d x = horner ((List.range (d + 1)).map f) x := by
  refine (horner_eq_evaluate (by simp) (fun k hk => ?_) x).symm
  exact getD_map_range (Nat.lt_succ_of_le hk)

/-- Interpolating at zero the values of a polynomial of degree below the number of points gives its constant term. -/
theorem interpolate_evaluate_zero {x : Nat → Byte} {k d : Nat} (hx : Distinct x k) (hd : d < k) (f : Nat → Byte) :
    interpolate x (fun i => evaluate f d (x i)) k 0 = f 0 := by
  simp only [evaluate_eq_horner]
  rw [interpolate_horner hx (by simpa using hd), horner_zero, List.range_succ_eq_map]
  rfl

/-- At `a` and at `b` a polynomial of degree 2 has the values of one of degree 1, whose constant term is
`c0 ⊕ c2·a·b`: the two differ by `c2·(x ⊕ a)·(x ⊕ b)`. -/
theorem horner_quadratic (c0 c1 c2 a b : Byte) :
    horner [c0, c1, c2] a = horner [c0 ^^^ gfMul (gfMul c2 a) b, c1 ^^^ gfMul c2 (a ^^^ b)] a := by
  have htwo : toField a + toField a = 0 := by rw [← toField_add, BitVec.xor_self]; exact toField_zero
  have hnil : horner [] a = 0 := rfl
  apply toField_injective
  simp only [horner_cons, hnil, toField_add, toField_mul, toField_zero]
  linear_combination (-(toField c2) * toField b) * htwo

theorem distinct_two {x : Nat → Byte} (hx : x 0 ≠ x 1) : Distinct x 2 := fun j hj i hi => by
  obtain ⟨rfl, rfl⟩ : j = 1 ∧ i = 0 := by omega
  exact hx

/-- Interpolating two values of a polynomial of degree 2 at zero (R193). -/
theorem interpolate_quadratic_zero {x : Nat → Byte} (hx : x 0 ≠ x 1) (c0 c1 c2 : Byte) :
    interpolate x (fun i => horner [c0, c1, c2] (x i)) 2 0 = c0 ^^^ gfMul (gfMul c2 (x 0)) (x 1) := by
  have hline : ∀ i < 2, horner [c0, c1, c2] (x i) =
      horner [c0 ^^^ gfMul (gfMul c2 (x 0)) (x 1), c1 ^^^ gfMul c2 (x 0 ^^^ x 1)] (x i) := fun i hi => by
    obtain rfl | rfl : i = 0 ∨ i = 1 := by omega
    · exact horner_quadratic c0 c1 c2 (x 0) (x 1)
    · rw [horner_quadratic c0 c1 c2 (x 1) (x 0), gfMul_assoc, gfMul_comm (x 1), ← gfMul_assoc, BitVec.xor_comm (x 1)]
  rw [interpolate_congr hline, interpolate_horner (distinct_two hx) le_rfl, horner_zero]
  rfl

/-! ### COMBINE of shares of a SPLIT (R194 (b)) -/

section
variable {s t u : State} {answer : Nat → List Byte} {place : Nat → Nat} (hok : SplitOk s)

include hok in
/-- A slot with the contents of one that holds a share holds that share. -/
theorem HoldsShare.of_sameShare {j i q : Nat} (h : HoldsShare s answer j t i) (ht : t.lmax = s.lmax)
    (hsame : SameShare t i u q) : HoldsShare s answer j u q := by
  have ⟨⟨_, hle⟩, _⟩ := hok
  refine ⟨hsame.idx_eq.trans h.idx_eq, hsame.len_eq.trans h.len_eq, fun p hp => ?_⟩
  rw [hsame.data_eq (by rwa [h.len_eq]) (by rw [ht]; omega), h.data_eq hp]

variable (hlmax : u.lmax = s.lmax) (hpos : 1 ≤ u.scnt.toNat) (hlt : ∀ i < u.scnt.toNat, place i < s.n.toNat)
  (hinj : ∀ i j, i < u.scnt.toNat → j < u.scnt.toNat → place i = place j → i = j)
  (hshare : ∀ i < u.scnt.toNat, HoldsShare s answer (place i) u i)
include hok hlmax hpos hlt hinj hshare

/-- Different shares of a SPLIT pass COMBINE's checks. -/
theorem combineOk_of_holdsShare : CombineOk u := by
  have ⟨⟨hslen, hle⟩, _⟩ := hok
  refine ⟨hpos, fun j hj => ?_, distinct_iff_injective.mpr fun i j hi hj heq => ?_, fun j hj => ?_, ?_, ?_⟩
  · rw [(hshare j hj).idx_eq]
    exact xValue_ne_zero hok (hlt j hj)
  · rw [(hshare i hi).idx_eq, (hshare j hj).idx_eq] at heq
    exact hinj i j hi hj (distinct_iff_injective.mp (distinct_xValue hok) _ _ (hlt i hi) (hlt j hj) heq)
  · rw [(hshare j hj).len_eq, (hshare 0 hpos).len_eq]
  · rwa [(hshare 0 hpos).len_eq]
  · rwa [(hshare 0 hpos).len_eq, hlmax]

/-- COMBINE of different shares of a SPLIT interpolates the positions' polynomials at the shares' indices. -/
theorem combinesTo_of_holdsShare : CombinesTo u s.slen fun p =>
    interpolate (shIdx u) (fun i => evaluate (coefficient s answer p) (s.t.toNat - 1) (shIdx u i)) u.scnt.toNat 0 := by
  have hcombines := combinesTo_of_combineOk (combineOk_of_holdsShare hok hlmax hpos hlt hinj hshare)
  rw [(hshare 0 hpos).len_eq] at hcombines
  refine hcombines.congr fun p hp => interpolate_congr (fun i hi => ?_) 0
  rw [(hshare i hi).idx_eq, (hshare i hi).data_eq hp]

end

/-- Settles O58: `T` points determine the polynomial, whose value at zero is the secret's byte. -/
theorem splitCombineRoundTrip : Obligations.SplitCombineRoundTrip := by
  intro s t u place hsplit hcode hlmax htk hkn hlt hinj hsame
  obtain ⟨hok, answer, hsupplies⟩ := splitOk_of_success hsplit hcode
  have ⟨_, ⟨ht, _⟩, _⟩ := hok
  have hpos : 1 ≤ u.scnt.toNat := ht.trans htk
  have hshare : ∀ i < u.scnt.toNat, HoldsShare s answer (place i) u i := fun i hi =>
    (holdsShare_split hok hsupplies hsplit (hlt i hi)).of_sameShare hok (exec_lmax hsplit) (hsame i hi)
  have ⟨_, _, hx, _⟩ := combineOk_of_holdsShare hok hlmax hpos hlt hinj hshare
  exact (combinesTo_of_holdsShare hok hlmax hpos hlt hinj hshare).congr fun p _ =>
    interpolate_evaluate_zero hx (by omega) (coefficient s answer p)

/-- The sequence of two values: the first in slot 0, the second in slot 1. -/
def pair {α : Type} (a b : α) : Nat → α
  | 0 => a
  | _ => b

theorem pair_injective {i j q r : Nat} (hij : i ≠ j) (hq : q < 2) (hr : r < 2) (h : pair i j q = pair i j r) : q = r := by
  obtain rfl | rfl : q = 0 ∨ q = 1 := by omega
  all_goals obtain rfl | rfl : r = 0 ∨ r = 1 := by omega
  exacts [rfl, absurd h hij, absurd h hij.symm, rfl]

/-- COMBINE of two different shares of a threshold-3 SPLIT (R193). -/
theorem combinesTo_of_two_of_three {s u : State} {answer : Nat → List Byte} {i j : Nat} (hok : SplitOk s)
    (ht : s.t.toNat = 3) (hi : i < s.n.toNat) (hj : j < s.n.toNat) (hij : i ≠ j) (hlmax : u.lmax = s.lmax)
    (hk : u.scnt.toNat = 2) (hshare0 : HoldsShare s answer i u 0) (hshare1 : HoldsShare s answer j u 1) :
    CombinesTo u s.slen fun p =>
      sec s p ^^^ gfMul (gfMul (coefficient s answer p 2) (xValue s i)) (xValue s j) := by
  have hcases : ∀ q < u.scnt.toNat, q = 0 ∨ q = 1 := by omega
  have hlt : ∀ q < u.scnt.toNat, pair i j q < s.n.toNat := fun q hq => by
    obtain rfl | rfl := hcases q hq
    exacts [hi, hj]
  have hshare : ∀ q < u.scnt.toNat, HoldsShare s answer (pair i j q) u q := fun q hq => by
    obtain rfl | rfl := hcases q hq
    exacts [hshare0, hshare1]
  have hinj : ∀ q r, q < u.scnt.toNat → r < u.scnt.toNat → pair i j q = pair i j r → q = r := by
    rw [hk]
    exact fun _ _ => pair_injective hij
  have hpos : 1 ≤ u.scnt.toNat := by omega
  have ⟨_, _, hx, _⟩ := combineOk_of_holdsShare hok hlmax hpos hlt hinj hshare
  have hne : shIdx u 0 ≠ shIdx u 1 := ne_of_distinct hx (by omega) (by omega) (by decide)
  refine (combinesTo_of_holdsShare hok hlmax hpos hlt hinj hshare).congr fun p _ => ?_
  rw [hk, ht, ← hshare0.idx_eq, ← hshare1.idx_eq]
  simp only [evaluate_eq_horner]
  exact interpolate_quadratic_zero hne _ _ _

/-- Settles O56: `combinesTo_of_two_of_three`, and `interpolate_quadratic_zero` on lists. -/
theorem twoSharesOfThree : Obligations.TwoSharesOfThree := by
  refine ⟨fun s t u answer i j hsplit hcode ht hsupplies hi hj hij hlmax hscnt hsame0 hsame1 => ?_,
    fun c0 c1 c2 x1 x2 hx => ?_⟩
  · obtain ⟨hok, -⟩ := splitOk_of_success hsplit hcode
    have ht : s.t.toNat = 3 := by rw [ht]; rfl
    have hshare : ∀ {m q : Nat}, m < s.n.toNat → SameShare t m u q → HoldsShare s answer m u q := fun hm hsame =>
      (holdsShare_split hok (fun _ => by rwa [ht]) hsplit hm).of_sameShare hok (exec_lmax hsplit) hsame
    exact combinesTo_of_two_of_three hok ht hi hj hij hlmax (by rw [hscnt]; rfl) (hshare hi hsame0) (hshare hj hsame1)
  · have hx' : pair x1 x2 0 ≠ pair x1 x2 1 := hx
    exact (lagAtZero_eq_interpolate (distinct_two hx') fun i => horner [c0, c1, c2] (pair x1 x2 i)).trans
      (congrArg some (interpolate_quadratic_zero hx' c0 c1 c2))

end Sys2Proof.Machine
end

section
/-!
SUPPORT. Errors and the idle block (spec/60_exceptions.md R213 to R215, R245): what an error leaves unchanged, the codes each
command can leave, and a start state for every one of them.
-/

namespace Sys2Proof.Machine

open Sys2Proof.Spec

/-! ### The idle block (R245) -/

theorem fetch_idle {s : State} (h : s.host = []) : fetch s = .settled s := by
  unfold fetch
  rw [h]

/-- Settles O8: with no move listed there is nothing to fetch. -/
theorem idleBlockHoldsState : Obligations.IdleBlockHoldsState := fun s h => by
  rw [step, fetch_idle h]

/-! ### What an error changes (R213, R214) -/

/-- Settles O21: a nonzero ERRCODE is that of a raised cause, and up to there only the randomness port had changed. -/
theorem errorChangesStatusAlone : Obligations.ErrorChangesStatusAlone := by
  intro i s t h hcode
  obtain ⟨s', ⟨news, -, hs⟩, ⟨c, rfl⟩ | ⟨w, -, rfl⟩⟩ := exec_eq_next h
  · have hkind : statusKind (failWith s' c).status = kindCode (causeKind c) := statusKind_statusDone _
    rw [hkind]
    exact ⟨by rw [hs]; rfl, statusIsDone_statusDone _, kindCode_ne_zero _, kindOfErrcode_causeCode c, statusDone_reserved _⟩
  · exact absurd rfl hcode

/-! ### The codes a command can leave, and no others (R215) -/

/-- If the outcome is a next state, its ERRCODE is one of those listed for the command. -/
def CodeListed (i : Instr) (o : Outcome) : Prop := ∀ t, o = .next t → t.errcode ∈ possibleCodes i

section
variable {i : Instr}

theorem CodeListed.finish (s : State) : CodeListed i (finish s) := by
  rintro _ ⟨⟩
  cases i <;> exact List.mem_cons_self

theorem CodeListed.raise (s : State) {c : Cause} (h : causeCode c ∈ possibleCodes i) : CodeListed i (raise s c) := by
  rintro _ ⟨⟩
  exact h

theorem CodeListed.finishResOr (s : State) {c : Cause} (h : causeCode c ∈ possibleCodes i) (o : Option Byte) :
    CodeListed i (finishResOr s c o) := by
  cases o with
  | none => exact .raise s h
  | some v => exact .finish _

end

theorem causeCode_mem_of_pointsCheck {s : State} {c : Cause} (h : pointsCheck s = some c) :
    causeCode c ∈ possibleCodes .linterp := by
  unfold pointsCheck at h
  split_ifs at h <;> cases h <;> decide

theorem causeCode_mem_of_splitCheck {s : State} {c : Cause} (h : splitCheck s = some c) :
    causeCode c ∈ possibleCodes .split := by
  unfold splitCheck at h
  split_ifs at h <;> cases h <;> decide

theorem causeCode_mem_of_combineCheck {s : State} {c : Cause} (h : combineCheck s = some c) :
    causeCode c ∈ possibleCodes .combine := by
  rw [combineCheck_eq_ite] at h
  split_ifs at h <;> cases h <;> decide

theorem distinct_of_pointsCheck {s : State} (h : pointsCheck s = none) : Distinct (xs s) s.xcnt.toNat :=
  by_contra fun hx => by
    have hdup := pointsCheck_of_repeated (xcnt_eq_ycnt_of_pointsCheck h) hx
    rw [h] at hdup
    cases hdup

/-- LINTERP and LINTERP0 leave the code of a failed check or succeed: the checks rule out a zero denominator. -/
theorem exec_linterp_codeListed (s : State) :
    CodeListed .linterp (exec .linterp s) ∧ CodeListed .linterp0 (exec .linterp0 s) := by
  cases h : pointsCheck s with
  | some c =>
    obtain ⟨hlinterp, hlinterp0⟩ := exec_linterp_of_failed h
    rw [hlinterp, hlinterp0]
    exact ⟨.raise s (causeCode_mem_of_pointsCheck h), .raise s (causeCode_mem_of_pointsCheck h)⟩
  | none =>
    obtain ⟨hlinterp, hlinterp0⟩ := exec_linterp_of_passed h (distinct_of_pointsCheck h)
    rw [hlinterp, hlinterp0]
    exact ⟨.finish _, .finish _⟩

theorem exec_pbuild_codeListed (s : State) : CodeListed .pbuild (exec .pbuild s) := by
  cases h : buildPoly s s.opa s.deg.toNat with
  | done c s' => rw [exec_pbuild_of_done h]; exact .finish _
  | raised c s' =>
    obtain ⟨rfl, -⟩ := buildPoly_eq_raised h
    rw [exec_pbuild_of_raised h]
    exact .raise s' (by decide)
  | hung => rw [exec_pbuild_of_hung h]; exact nofun

theorem exec_split_codeListed (s : State) : CodeListed .split (exec .split s) := by
  cases hcheck : splitCheck s with
  | some c => rw [exec_split_of_check hcheck]; exact .raise s (causeCode_mem_of_splitCheck hcheck)
  | none =>
    cases h : drawPolys s (s.t.toNat - 1) (secretOperand s) with
    | done polys s' => rw [exec_split_of_done hcheck h]; exact .finish _
    | raised c s' =>
      obtain ⟨rfl, -⟩ := drawPolys_eq_raised h
      rw [exec_split_of_raised hcheck h]
      exact .raise s' (by decide)
    | hung => rw [exec_split_of_hung hcheck h]; exact nofun

/-- COMBINE leaves the code of a failed check or succeeds: the checks rule out a zero denominator. -/
theorem exec_combine_codeListed (s : State) : CodeListed .combine (exec .combine s) := by
  cases hcheck : combineCheck s with
  | some c => rw [exec_combine_of_check hcheck]; exact .raise s (causeCode_mem_of_combineCheck hcheck)
  | none => rw [exec_combine_of_combineOk (combineCheck_eq_none_iff.mp hcheck)]; exact .finish _

theorem exec_codeListed (i : Instr) (s : State) : CodeListed i (exec i s) := by
  cases i with
  | gfadd | gfsub | gfxtime | gfmul | gfpow | peval => exact .finish _
  | gfinv | gfdiv => exact .finishResOr s (by decide) _
  | xdistinct =>
    simp only [exec, execXdistinct]
    split
    · exact .finish s
    · exact .raise s (by decide)
  | lbasis =>
    simp only [exec, execLbasis]
    split
    · exact .raise s (by decide)
    · exact .finishResOr s (by decide) _
  | linterp => exact (exec_linterp_codeListed s).1
  | linterp0 => exact (exec_linterp_codeListed s).2
  | pbuild => exact exec_pbuild_codeListed s
  | split => exact exec_split_codeListed s
  | combine => exact exec_combine_codeListed s

/-! ### A start state for each code (R215) -/

/-- After reset, with x-values written, XCNT and YCNT their number, and OPA and OPB 0. -/
def pointsState (zs : List Byte) : State :=
  { State.reset with
    mem := memInsertList [] (Loc.addr (.xs 0)) zs, xcnt := BitVec.ofNat 8 zs.length, ycnt := BitVec.ofNat 8 zs.length }

/-- After reset, with a length, a threshold and a number of shares for SPLIT, and default x-values. -/
def splitState (len : Half) (t n : Byte) : State := { State.reset with slen := len, t := t, n := n }

/-- The same for a secret of one byte and threshold 1, with explicit x-values, one for each share. -/
def splitXsState (zs : List Byte) : State :=
  { pointsState zs with slen := 1, t := 1, n := BitVec.ofNat 8 zs.length, ctrl := 0x01 }

/-- After reset, with two shares of the given indices and lengths in slots 0 and 1. -/
def sharesState (x0 : Byte) (len0 : Half) (x1 : Byte) (len1 : Half) : State :=
  { State.reset with mem := writeSlot (writeSlot [] 0 x0 len0 []) 1 x1 len1 [], scnt := 2 }

/-- For each command a start state for each of its codes, in the order of `possibleCodes`. -/
def startStates : Instr → List State
  | .gfadd | .gfsub | .gfxtime | .gfmul | .gfpow | .peval => [State.reset]
  | .gfinv => [{ State.reset with opa := 1 }, State.reset]
  | .gfdiv => [{ State.reset with opb := 1 }, State.reset]
  | .xdistinct => [pointsState [1, 2], pointsState [1, 1]]
  | .lbasis => [pointsState [1, 2], pointsState [], pointsState [1, 1]]
  | .linterp | .linterp0 =>
      [pointsState [1, 2], { pointsState [1, 2] with ycnt := 1 }, pointsState [], pointsState [1, 1]]
  | .pbuild => [State.reset, { State.reset with deg := 1, rng := [.bytes []] }]
  | .split =>
      [splitState 1 1 1, splitState 0 1 1, splitState 0x0101 1 1, splitState 1 0 1, splitState 1 1 0, splitState 1 2 1,
        { splitXsState [1, 2] with xcnt := 1 }, splitXsState [1, 0], splitXsState [1, 1],
        { splitState 1 2 2 with rng := [.bytes []] }]
  | .combine =>
      [sharesState 1 1 2 1, { sharesState 1 1 2 1 with scnt := 0 }, sharesState 0 1 2 1, sharesState 1 1 1 1,
        sharesState 1 1 2 2, sharesState 1 0 2 0, sharesState 1 0x0101 2 0x0101]

/-- The ERRCODE a command leaves, if it ends in a next state. -/
def codeAfter (i : Instr) (s : State) : Option Byte :=
  match exec i s with
  | .next t => some t.errcode
  | _ => none

theorem exists_next_of_codeAfter {i : Instr} {s : State} {c : Byte} (h : codeAfter i s = some c) :
    ∃ t, exec i s = .next t ∧ t.errcode = c := by
  unfold codeAfter at h
  split at h
  · next t hexec => exact ⟨t, hexec, Option.some.inj h⟩
  · cases h

/-- The model run from each start state leaves the codes of R215, one after the other. -/
theorem map_codeAfter_startStates (i : Instr) : (startStates i).map (codeAfter i) = (possibleCodes i).map some := by
  cases i <;> decide +kernel

theorem exists_next_of_mem_possibleCodes {i : Instr} {c : Byte} (h : c ∈ possibleCodes i) :
    ∃ s t, exec i s = .next t ∧ t.errcode = c := by
  have hmem : some c ∈ (startStates i).map (codeAfter i) := by
    rw [map_codeAfter_startStates]
    exact List.mem_map_of_mem h
  obtain ⟨s, -, hs⟩ := List.mem_map.mp hmem
  exact ⟨s, exists_next_of_codeAfter hs⟩

/-- Settles O23: no other code by `exec_codeListed`, each of them from a state of `startStates`, and `step_illegal`. -/
theorem errorsOfEachCommand : Obligations.ErrorsOfEachCommand := by
  refine ⟨exec_codeListed, fun i c => exists_next_of_mem_possibleCodes, fun s b moves t h hb ht => ?_⟩
  rw [step_illegal h rfl hb] at ht
  cases ht
  rfl

end Sys2Proof.Machine
end
